-- ==== Sys2Proof/Word.lean ====
section
/-! DEFINITION. Word.lean: the unit of the two buffers. -/

namespace Sys2Proof

/-- One byte, `0..255` (R7); the unit of the payload buffer (R26) and, as one character code, of the line
buffer (R33). -/
abbrev Byte := BitVec 8

/-- A WireFrame read as one little-endian 64-bit word, `W` (R29). -/
abbrev FrameWord := BitVec 64

end Sys2Proof
end

