-- ==== Sys2Proof/Syntax.lean ====
section
/-! DEFINITION. Syntax.lean: the operations of the block (spec/opcode_table.json), the values they carry, and
the request and response records of the ports. -/

namespace Sys2Proof

/-- Eight switch flags, `c<i>` = channel `i` (R7, R15). -/
structure Switches where
  c0 : Bool
  c1 : Bool
  c2 : Bool
  c3 : Bool
  c4 : Bool
  c5 : Bool
  c6 : Bool
  c7 : Bool
deriving DecidableEq, Repr, Inhabited

/-- The decoded unit (R15): an instance, two dimmer levels in thousandths, eight switches. `inst` and the
levels are integers, as the abstract types of R13 are: an ill-formed state can be written down, and ENCODE
refuses it with a fault. -/
structure ModuleState where
  inst : Int
  level0 : Int
  level1 : Int
  sw : Switches
deriving DecidableEq, Repr

/-- A broken-down UTC time (R17). A record outside the ranges is not a request (R9, U6), so the ranges are
part of the type and such a record cannot be built. No calendar check: 31 February is a value. -/
@[ext]
structure Timestamp where
  year : Nat
  month : Nat
  day : Nat
  hour : Nat
  minute : Nat
  second : Nat
  ms : Nat
  inRange : year ≤ 9999 ∧ 1 ≤ month ∧ month ≤ 12 ∧ 1 ≤ day ∧ day ≤ 31 ∧ hour ≤ 23 ∧ minute ≤ 59 ∧
    second ≤ 59 ∧ ms ≤ 999
deriving DecidableEq, Repr

/-- What a SerialLine says, and what PARSE returns (R14, R83). -/
structure LineFields where
  ts : Timestamp
  pgn : BitVec 32
  src : Byte
  dst : Byte
  payload : List Byte
deriving DecidableEq, Repr

/-- The variable fields of a frame of format WF2 (R45); the two tags are constants. -/
structure WireFrame where
  inst : Byte
  dimmer0 : BitVec 16
  dimmer1 : BitVec 16
  switches : Byte
deriving DecidableEq, Repr

/-- The operation selected by `op` (R41). -/
inductive Op where
  | decode
  | encode
  | format
  | parse
deriving DecidableEq, Repr

/-- One constructor per row of spec/opcode_table.json. The first four are the operations, each carrying only
the request fields it reads, over the abstract types of R13 (R24). `dst = none` is `dst_present = false`
(D15). `wf2` is the table's row WF2, a data format that is no operation (R45; log 3). -/
inductive Instr where
  | decode (payload : List Byte)
  | encode (inst level0 level1 : Int) (sw : Switches)
  | format (pgn : BitVec 32) (payload : List Byte) (src : Byte) (dst : Option Byte) (ts : Timestamp)
  | parse (line : List Byte)
  | wf2 (f : WireFrame)
deriving DecidableEq, Repr

/-- The timestamp on the pins, at the widths of R17; any bit pattern can stand on them. -/
structure TsPins where
  year : BitVec 14
  month : BitVec 4
  day : BitVec 5
  hour : BitVec 5
  minute : BitVec 6
  second : BitVec 6
  ms : BitVec 10
deriving DecidableEq, Repr, Inhabited

/-- The request record in its port binding (R13): every field at its width, whatever `op` says. -/
structure ReqPort where
  op : BitVec 2
  payload : List Byte
  plen : BitVec 16
  inst : BitVec 8
  level0 : BitVec 32
  level1 : BitVec 32
  sw : Switches
  pgn : BitVec 32
  src : Byte
  dstPresent : Bool
  dst : Byte
  ts : TsPins
  line : List Byte
  llen : BitVec 16
deriving DecidableEq, Repr

/-- What can stand on the request port: a request record (R13), or a bare 64-bit frame word (the table's row
WF2), which is no request and which the block refuses (log 3). -/
inductive PortWord where
  | request (r : ReqPort)
  | frame (w : FrameWord)
deriving DecidableEq, Repr

/-- The response record in its port binding (R14). -/
structure RespPort where
  status : BitVec 3
  inst : BitVec 8
  level0 : BitVec 16
  level1 : BitVec 16
  sw : Switches
  payload : List Byte
  plen : BitVec 16
  line : List Byte
  llen : BitVec 16
  pgn : BitVec 32
  src : Byte
  dst : Byte
  ts : TsPins
deriving DecidableEq, Repr, Inhabited

end Sys2Proof
end

