-- ==== Sys2Proof/Config.lean ====
section
/-! DEFINITION. Config.lean: the parameters whose value the spec fixes (R5) and the ones it leaves open (R6,
D21), the latter as constants without a body: nothing can be proved of their value. -/

namespace Sys2Proof.Config

/-- FRAME_LEN (R5). -/
abbrev frameLen : Nat := 8
/-- TAG0 (R5). -/
abbrev tag0 : Nat := 0x30
/-- TAG1 (R5). -/
abbrev tag1 : Nat := 0x99
/-- INSTANCE_MAX (R5). -/
abbrev instanceMax : Nat := 49
/-- DIMMER_COUNT (R5). -/
abbrev dimmerCount : Nat := 2
/-- DIMMER_MAX (R5). -/
abbrev dimmerMax : Nat := 1000
/-- DIMMER_SCALE (R5). -/
abbrev dimmerScale : Nat := 1000
/-- SWITCH_COUNT (R5). -/
abbrev switchCount : Nat := 8
/-- PRIORITY (R5): the second field of every SerialLine. -/
abbrev priority : Nat := 2
/-- BROADCAST (R5): the destination when the request gives none. -/
abbrev broadcast : Byte := 255
/-- MAX_PAYLOAD_LEN (R5, D12). -/
abbrev maxPayloadLen : Nat := 255
/-- EMPIRBUS_PGN (R5): the Bridge's; the block treats `pgn` as an opaque number. -/
abbrev empirbusPgn : BitVec 32 := 65280
/-- DATA_MODEL (R5): the one populated variant. -/
abbrev populatedDataModel : BitVec 3 := 2

/-- What the `k`-th host read of an idle response port sees: no defined value (R23, U8; log 7). -/
opaque idleResponse : Nat → RespPort

/-- ROUND_TIE (R6, U2; log 8): whether `round` goes up at the exact half `x`. Host-side only. -/
opaque roundTie : Rat → Bool

/-- EMPIRBUS_MFR_CODE (R6, R89, U9; log 12). Bridge-side only. -/
opaque empirbusMfrCode : Nat

end Sys2Proof.Config
end

