-- ==== Sys2Proof/WellFormed.lean ====
section
/-! DEFINITION. WellFormed.lean: which instructions the ports can present (R13, D4): every operand fits its
port. Operand VALUES outside their legal ranges (instance 50, level 1001) are well-formed requests that
fault. -/

namespace Sys2Proof

/-- A byte or character sequence whose length fits its `uint16` length field (R13). -/
def fitsLength (b : List Byte) : Bool := decide (b.length ≤ 65535)

/-- A value of the `uint8` port `instance` (R13). -/
def fitsInstance (v : Int) : Bool := decide (0 ≤ v ∧ v ≤ 255)

/-- A value of a `sint32` port (R13, R70). -/
def fitsLevel (v : Int) : Bool := decide (-2147483648 ≤ v ∧ v ≤ 2147483647)

/-- The table's note on WF2: "Legal only if i <= 49, A <= 1000, B <= 1000" (R46). -/
def frameLegal (f : WireFrame) : Bool :=
  decide (f.inst.toNat ≤ 49 ∧ f.dimmer0.toNat ≤ 1000 ∧ f.dimmer1.toNat ≤ 1000)

/-- The operands fit the ports (the four operations), or the frame is legal (`wf2`). -/
def Instr.wellFormed : Instr → Bool
  | .decode payload => fitsLength payload
  | .encode inst level0 level1 _ => fitsInstance inst && fitsLevel level0 && fitsLevel level1
  | .format _ payload _ _ _ => fitsLength payload
  | .parse line => fitsLength line
  | .wf2 f => frameLegal f

end Sys2Proof
end

