-- ==== Sys2Proof/Decode.lean ====
section
/-! DEFINITION. Decode.lean: from what stands on the request port to an instruction, total and rejecting by
name, and back. The spec gives a request no bit string (R40); its encoding is the request record of R13 with
the selector of R41, and the 64-bit pattern of R45 for the row WF2. -/

namespace Sys2Proof

/-- Why what stands on the request port is not a request of this block (R9, U6). -/
inductive DecodeError where
  /-- `plen` does not match the bytes presented (U6). -/
  | plenMismatch
  /-- `llen` does not match the characters presented (U6). -/
  | llenMismatch
  /-- A timestamp field outside its range (R17, U6). -/
  | timestampOutOfRange
  /-- A bare frame word that does not match WF2 (R46), so that no row of the table stands for it. -/
  | frameTagMismatch
deriving DecidableEq, Repr

/-- A timestamp from seven numbers, if they are in the ranges of R17. -/
def mkTimestamp (year month day hour minute second ms : Nat) : Option Timestamp :=
  if h : year ≤ 9999 ∧ 1 ≤ month ∧ month ≤ 12 ∧ 1 ≤ day ∧ day ≤ 31 ∧ hour ≤ 23 ∧ minute ≤ 59 ∧
      second ≤ 59 ∧ ms ≤ 999 then
    some ⟨year, month, day, hour, minute, second, ms, h⟩
  else none

/-- The timestamp on the pins (R17), or none where a field is outside its range. -/
def readTs (t : TsPins) : Option Timestamp :=
  mkTimestamp t.year.toNat t.month.toNat t.day.toNat t.hour.toNat t.minute.toNat t.second.toNat t.ms.toNat

/-- A timestamp driven onto its pins (R17). -/
def driveTs (t : Timestamp) : TsPins where
  year := BitVec.ofNat 14 t.year
  month := BitVec.ofNat 4 t.month
  day := BitVec.ofNat 5 t.day
  hour := BitVec.ofNat 5 t.hour
  minute := BitVec.ofNat 6 t.minute
  second := BitVec.ofNat 6 t.second
  ms := BitVec.ofNat 10 t.ms

/-- The selector values of R41; no value is reserved or illegal. -/
def opOfSelector (b : BitVec 2) : Op :=
  if b = 0#2 then .decode else if b = 1#2 then .encode else if b = 2#2 then .format else .parse

/-- The selector value of an operation (R41). -/
def selectorOfOp : Op → BitVec 2
  | .decode => 0#2
  | .encode => 1#2
  | .format => 2#2
  | .parse => 3#2

/-- The payload presented, whose length is told twice (R13, R40). -/
def readPayload (r : ReqPort) : Except DecodeError (List Byte) :=
  if r.payload.length = r.plen.toNat then .ok r.payload else .error .plenMismatch

/-- The line presented, whose length is told twice (R13, R40). -/
def readLine (r : ReqPort) : Except DecodeError (List Byte) :=
  if r.line.length = r.llen.toNat then .ok r.line else .error .llenMismatch

/-- The destination: not read unless `dst_present` (R13, R78). -/
def readDst (r : ReqPort) : Option Byte := if r.dstPresent then some r.dst else none

/-- The operation a request record asks for, from the fields that operation reads (R44) and no others
(R24). -/
def decodeRequest (r : ReqPort) : Except DecodeError Instr :=
  match opOfSelector r.op with
  | .decode =>
    match readPayload r with
    | .ok p => .ok (.decode p)
    | .error e => .error e
  | .encode => .ok (.encode r.inst.toNat r.level0.toInt r.level1.toInt r.sw)
  | .format =>
    match readPayload r with
    | .ok p =>
      match readTs r.ts with
      | some t => .ok (.format r.pgn p r.src (readDst r) t)
      | none => .error .timestampOutOfRange
    | .error e => .error e
  | .parse =>
    match readLine r with
    | .ok l => .ok (.parse l)
    | .error e => .error e

/-- The canonical-tag match of the integer view (R46): `W & mask = match`. -/
def matchesWf2 (w : FrameWord) : Bool := decide (w &&& 0xFFFF#64 = 0x9930#64)

/-- The fields of a frame word by bit position (R45), if its tags are canonical (R46). -/
def frameOfWord (w : FrameWord) : Option WireFrame :=
  if matchesWf2 w then
    some { inst := w.extractLsb' 16 8, dimmer0 := w.extractLsb' 24 16,
           dimmer1 := w.extractLsb' 40 16, switches := w.extractLsb' 56 8 }
  else none

/-- The frame word of a frame, written as the pattern of R45, most significant bit first:
`s B A i tag1 tag0`. -/
def wordOfFrame (f : WireFrame) : FrameWord :=
  f.switches ++ f.dimmer1 ++ f.dimmer0 ++ f.inst ++ 0x99#8 ++ 0x30#8

/-- The decoder: what stands on the request port, read as an instruction or rejected by name. -/
def decode : PortWord → Except DecodeError Instr
  | .request r => decodeRequest r
  | .frame w =>
    match frameOfWord w with
    | some f => .ok (.wf2 f)
    | none => .error .frameTagMismatch

/-- A request record with selector 0 and every operand at rest: zero, and the least value of its type for
`month` and `day`, whose types hold no zero (R17; log 2). -/
def restPort : ReqPort where
  op := 0
  payload := []
  plen := 0
  inst := 0
  level0 := 0
  level1 := 0
  sw := ⟨false, false, false, false, false, false, false, false⟩
  pgn := 0
  src := 0
  dstPresent := false
  dst := 0
  ts := { year := 0, month := 1, day := 1, hour := 0, minute := 0, second := 0, ms := 0 }
  line := []
  llen := 0

/-- The encoder: an instruction on the request port. A field the operation does not read may hold anything
(R24); it is left at rest. -/
def encode : Instr → PortWord
  | .decode payload =>
    .request { restPort with op := selectorOfOp .decode, payload := payload, plen := BitVec.ofNat 16 payload.length }
  | .encode inst level0 level1 sw =>
    .request { restPort with
      op := selectorOfOp .encode, inst := BitVec.ofInt 8 inst, level0 := BitVec.ofInt 32 level0,
      level1 := BitVec.ofInt 32 level1, sw := sw }
  | .format pgn payload src dst ts =>
    .request { restPort with
      op := selectorOfOp .format, pgn := pgn, payload := payload, plen := BitVec.ofNat 16 payload.length,
      src := src, dstPresent := dst.isSome, dst := dst.getD 0, ts := driveTs ts }
  | .parse line =>
    .request { restPort with op := selectorOfOp .parse, line := line, llen := BitVec.ofNat 16 line.length }
  | .wf2 f => .frame (wordOfFrame f)

/-- A word of the opcode table on the request port. The four operations have two bits there, the selector;
their operands have none and stand at rest (log 2). The row WF2 has 64 bits. -/
def portOfTableWord (nbits w : Nat) : PortWord :=
  if nbits ≤ 8 then .request { restPort with op := BitVec.ofNat 2 w } else .frame (BitVec.ofNat 64 w)

/-- The instruction the decoder reads from a word of the opcode table. -/
def decodeTableWord (nbits w : Nat) : Option Instr := (decode (portOfTableWord nbits w)).toOption

end Sys2Proof
end

