-- ==== Sys2Proof/Machine/State.lean ====
section
/-! DEFINITION. Machine/State.lean: what the block and its ports hold, and why a step can stop. -/

namespace Sys2Proof.Machine

/-- The named failures (R43, R102 to R107). A fault of the spec is an error RESPONSE, not a stop of the
machine: see `raise`. Code 7 is never produced and has no name here. -/
inductive FaultName where
  /-- DECODE: the payload is not 8 bytes (R103). -/
  | malformedFrame
  /-- DECODE, ENCODE: a dimmer outside 0..1000 (R104). -/
  | outOfRangeDimmer
  /-- ENCODE, DECODE: an instance outside 0..49 (R105). -/
  | outOfRangeInstance
  /-- FORMAT: a payload longer than 255 bytes (R106). -/
  | invalidPayloadLength
  /-- The Bridge's own error, never raised by the block (R107). -/
  | unknownInstance
  /-- PARSE: not a SerialLine (R107). -/
  | malformedLine
deriving DecidableEq, Repr

/-- One response: a result or a fault name, never both (R14, R108). -/
inductive Response where
  | decoded (m : ModuleState)
  | encoded (payload : List Byte)
  | formatted (line : List Byte)
  | parsed (x : LineFields)
  | fault (f : FaultName)
deriving DecidableEq, Repr

/-- Reasons for a machine fault: there are none. Every fault the spec names is an error response after which
the block serves the next request (R102, R108, R111), so the type is empty (log 10). Safe: no claim can be
proved from a stop that does not exist. -/
inductive Fault where
deriving DecidableEq, Repr

/-- Reasons the model has no meaning for what it is asked to run. All are safe: the model stops. -/
inductive Refusal where
  /-- Raised by an arm of `exec` whose instruction has no meaning yet; no arm raises it. Safe. -/
  | notModelled (mnemonic : String)
  /-- Raised by `step` where what stands on the request port does not have the types of a request: "a model
  should refuse it" (R9, U6; log 9). Safe. -/
  | notARequest (e : DecodeError)
  /-- Raised by `step` and by every operation under a DATA_MODEL other than 2: "a model must refuse to run"
  (R21, U4; log 5). Safe. -/
  | dataModelNotPopulated
  /-- Raised by `execWf2`: the row WF2 is "Not an operation" (opcode_table.json, R116; log 3). Safe. -/
  | notAnOperation
deriving DecidableEq, Repr

/-- The block between two steps: its two static inputs (R21) and its two ports (R11). It has no other state
(R10, R18 to R20, R22). -/
structure State where
  /-- Static input DATA_MODEL (R21). -/
  dataModel : BitVec 3
  /-- Static input HEX_UPPER (R21). -/
  hexUpper : Bool
  /-- The request port: what the host has presented and the block has not yet answered, oldest first
  (R11, R12; log 1). -/
  requests : List PortWord
  /-- The response port: what the block has answered and the host has not yet taken, oldest first
  (R11, R12; log 1). -/
  responses : List Response
  /-- The model's own counter of host reads of the idle response port, the argument of the free value
  `Config.idleResponse` (U8; log 7). -/
  idleReads : Nat
deriving DecidableEq, Repr

/-- The block as the host powers it up: the static inputs fixed before the first request (R121), both ports
idle (R119). -/
def State.powerUp (dataModel : BitVec 3) (hexUpper : Bool) : State where
  dataModel := dataModel
  hexUpper := hexUpper
  requests := []
  responses := []
  idleReads := 0

/-- The machine right after reset (R23, R118, R119): both ports idle, the static inputs at their defaults 2
and 0. -/
def State.reset : State := State.powerUp 2 false

end Sys2Proof.Machine
end

