-- ==== Sys2Proof/Machine/Flags.lean ====
section
/-! DEFINITION. Machine/Flags.lean: the block has no flags and no condition codes (R19). The only status is
the 3-bit `status` of one response (R14, R43), computed here. -/

namespace Sys2Proof.Machine

/-- The status code of a fault (R43). -/
def faultCode : FaultName → BitVec 3
  | .malformedFrame => 1
  | .outOfRangeDimmer => 2
  | .outOfRangeInstance => 3
  | .invalidPayloadLength => 4
  | .unknownInstance => 5
  | .malformedLine => 6

/-- The fault a host reads from a status code: none for `OK` (0) and for the unused code 7 (R43). -/
def faultOfCode (c : BitVec 3) : Option FaultName :=
  if c = 1#3 then some .malformedFrame
  else if c = 2#3 then some .outOfRangeDimmer
  else if c = 3#3 then some .outOfRangeInstance
  else if c = 4#3 then some .invalidPayloadLength
  else if c = 5#3 then some .unknownInstance
  else if c = 6#3 then some .malformedLine
  else none

/-- `resp.status` (R14): 0 = `OK`, or the code of the fault. -/
def statusOf : Response → BitVec 3
  | .decoded _ => 0
  | .encoded _ => 0
  | .formatted _ => 0
  | .parsed _ => 0
  | .fault f => faultCode f

end Sys2Proof.Machine
end

