-- ==== Sys2Proof/Machine/Ops.lean ====
section
/-! DEFINITION. Machine/Ops.lean: the operations the meanings share: reading and writing the buffers (R8,
R59, R60), delivering a result, taking a fault (R108), the static configuration check (R21), and fetching
what stands on the request port. -/

namespace Sys2Proof.Machine

/-- A step's outcome on this machine. -/
abbrev Outcome := Host.Outcome State Fault Refusal

/-- `MemRead(buf, off, 1)` (R8): defined only inside the buffer. -/
def memRead8 (buf : List Byte) (off : Nat) (h : off + 1 ≤ buf.length) : Nat := (buf[off]'h).toNat

/-- `MemRead(buf, off, 2)`, little-endian and zero-extended (R8, R28): defined only inside the buffer. -/
def memRead16 (buf : List Byte) (off : Nat) (h : off + 2 ≤ buf.length) : Nat :=
  memRead8 buf off (Nat.le_of_succ_le h) + 256 * memRead8 buf (off + 1) h

/-- `rd16` (R59). -/
def rd16 (p : List Byte) (off : Nat) (h : off + 2 ≤ p.length) : Nat := memRead16 p off h

/-- `MemWrite(buf, off, 1, v)` (R8). -/
def memWrite8 (buf : List Byte) (off v : Nat) : List Byte := buf.set off (BitVec.ofNat 8 (v % 256))

/-- `MemWrite(buf, off, 2, v)`, little-endian (R8). -/
def memWrite16 (buf : List Byte) (off v : Nat) : List Byte :=
  memWrite8 (memWrite8 buf off (v % 256)) (off + 1) (v / 256)

/-- `wr16` (R60). -/
def wr16 (p : List Byte) (off v : Nat) : List Byte := memWrite16 p off v

/-- The response of the transaction leaves through the response port, behind the earlier ones (R12). -/
def respond (r : Response) (s : State) : State := { s with responses := s.responses ++ [r] }

/-- A successful end of a transaction: `status = OK` and the result (R14). -/
def deliver (r : Response) (s : State) : Outcome := .next (respond r s)

/-- Taking a fault, `raise` (R108): the transaction ends, its response is the fault's name and no result,
and nothing else changes: there is no mode, mask, saved address or handler. There is no return operation
beside it, because a fault leaves nothing to return from (R111): the next request is served as after any
transaction. -/
def raise (f : FaultName) (s : State) : Outcome := .next (respond (.fault f) s)

/-- The block has a meaning under DATA_MODEL 2 only; under any other "a model must refuse to run"
(R21, U4). -/
def whenPopulated (s : State) (o : Outcome) : Outcome :=
  if s.dataModel = Config.populatedDataModel then o else .refused .dataModelNotPopulated

/-- The oldest request on the port, and the state in which the block has taken it (R12). -/
def fetch (s : State) : Option (PortWord × State) :=
  match s.requests with
  | [] => none
  | w :: rest => some (w, { s with requests := rest })

end Sys2Proof.Machine
end

