-- ==== Sys2Proof/Machine/Operands.lean ====
section
/-! DEFINITION. Machine/Operands.lean: the operand and result forms: switch lanes (R61, R62), legal ranges
(R67), the integer view of a frame (R29), the renderers (R73 to R76), the sub-parsers (R84), the ratio maps
(R68, R69), and the port binding of a response (R14). -/

namespace Sys2Proof.Machine

/-! ### Switches -/

/-- `sw[i]`, channel `i` (R7). -/
def swGet (sw : Switches) (i : Fin 8) : Bool :=
  match i with
  | 0 => sw.c0
  | 1 => sw.c1
  | 2 => sw.c2
  | 3 => sw.c3
  | 4 => sw.c4
  | 5 => sw.c5
  | 6 => sw.c6
  | 7 => sw.c7

/-- `sw` with channel `i` set to `v`; no other channel changes (R71). -/
def swSet (sw : Switches) (i : Fin 8) (v : Bool) : Switches :=
  match i with
  | 0 => { sw with c0 := v }
  | 1 => { sw with c1 := v }
  | 2 => { sw with c2 := v }
  | 3 => { sw with c3 := v }
  | 4 => { sw with c4 := v }
  | 5 => { sw with c5 := v }
  | 6 => { sw with c6 := v }
  | 7 => { sw with c7 := v }

/-- Bit `i` of the byte value `b` (R7). -/
def bitOf (b i : Nat) : Bool := decide ((b / 2 ^ i) % 2 = 1)

/-- `unpack8` (R61): `sw[i]` is bit `i`, bit 0 the least significant. -/
def unpack8 (b : Nat) : Switches :=
  ⟨bitOf b 0, bitOf b 1, bitOf b 2, bitOf b 3, bitOf b 4, bitOf b 5, bitOf b 6, bitOf b 7⟩

/-- A Boolean as a bit (R7). -/
def bit (v : Bool) : Nat := if v then 1 else 0

/-- `pack8` (R62): the sum of `2^i` over the channels that are on. -/
def pack8 (sw : Switches) : Nat :=
  bit sw.c0 + bit sw.c1 * 2 + bit sw.c2 * 4 + bit sw.c3 * 8 + bit sw.c4 * 16 + bit sw.c5 * 32 +
    bit sw.c6 * 64 + bit sw.c7 * 128

/-! ### Ranges and the frame word -/

/-- The instance range 0..49 (R15). -/
def instInRange (v : Int) : Bool := decide (0 ≤ v ∧ v ≤ Config.instanceMax)

/-- The level range 0..1000 (R15). -/
def levelInRange (v : Int) : Bool := decide (0 ≤ v ∧ v ≤ Config.dimmerMax)

/-- The integer view `W` of a frame, `p[0]` in the low bits (R29), as a number. -/
def frameValue : List Byte → Nat
  | [] => 0
  | b :: bs => b.toNat + 256 * frameValue bs

/-- The integer view as a 64-bit word (R29). -/
def frameWordOf (p : List Byte) : FrameWord := BitVec.ofNat 64 (frameValue p)

/-- A dimmer level as an exact ratio (R68); host-side, the block does not compute it. -/
def ratioOfLevel (m : Int) : Rat := (m : Rat) / (Config.dimmerScale : Rat)

/-- `round` (R69): the nearest integer; at an exact half the spec leaves open which neighbour is picked (U2),
and `Config.roundTie` picks. -/
def roundNearest (x : Rat) : Int :=
  if x - x.floor < 1 / 2 then x.floor
  else if 1 / 2 < x - x.floor then x.floor + 1
  else if Config.roundTie x then x.floor + 1
  else x.floor

/-- The level of a ratio (R69); host-side, the block does not compute it. -/
def levelOfRatio (q : Rat) : Int := roundNearest (q * (Config.dimmerScale : Rat))

/-! ### Characters -/

/-- The comma that separates the fields of a line (R47). -/
def chComma : Byte := 0x2C
/-- `-` (R33). -/
def chDash : Byte := 0x2D
/-- `.` (R33). -/
def chDot : Byte := 0x2E
/-- `:` (R33). -/
def chColon : Byte := 0x3A
/-- `T` (R33). -/
def chT : Byte := 0x54
/-- `Z` (R33). -/
def chZ : Byte := 0x5A
/-- `0` (R33). -/
def chZero : Byte := 0x30

/-- The character of a decimal digit, `0x30 + d` (R74). -/
def digitChar (d : Nat) : Byte := BitVec.ofNat 8 (0x30 + d)

/-- `pad(n, w)` (R74): the digit at position `j` is `(n div 10^(w-1-j)) mod 10`. -/
def pad (n : Nat) : Nat → List Byte
  | 0 => []
  | w + 1 => digitChar (n / 10 ^ w % 10) :: pad n w

/-- The least `w' ≥ w` with `n < 10^w'`, looked for in at most `fuel` steps. -/
def decWidthFrom (n w : Nat) : Nat → Nat
  | 0 => w
  | fuel + 1 => if n < 10 ^ w then w else decWidthFrom n (w + 1) fuel

/-- The number of decimal digits of `n`: the least `w ≥ 1` with `n < 10^w` (R75). A number has no more
decimal digits than binary ones, so that many steps are enough. -/
def decWidth (n : Nat) : Nat := decWidthFrom n 1 (Nat.log2 n + 1)

/-- `dec(n)` (R75): the shortest decimal spelling. -/
def dec (n : Nat) : List Byte := pad n (decWidth n)

/-- `hexdigit(d)` (R76): the letter case is HEX_UPPER's. -/
def hexDigit (upper : Bool) (d : Nat) : Byte :=
  if d ≤ 9 then BitVec.ofNat 8 (0x30 + d)
  else if upper then BitVec.ofNat 8 (0x41 + (d - 10))
  else BitVec.ofNat 8 (0x61 + (d - 10))

/-- `hex2(b)` (R76): high nibble first. -/
def hex2 (upper : Bool) (b : Byte) : List Byte :=
  [hexDigit upper (b.toNat / 16), hexDigit upper (b.toNat % 16)]

/-- `join(sep, xs)` (R8). -/
def joinWith (sep : Byte) : List (List Byte) → List Byte
  | [] => []
  | [x] => x
  | x :: y :: ys => x ++ sep :: joinWith sep (y :: ys)

/-- `render_ts` (R73, R49). -/
def renderTs (t : Timestamp) : List Byte :=
  pad t.year 4 ++ chDash :: pad t.month 2 ++ chDash :: pad t.day 2 ++ chT :: pad t.hour 2 ++
    chColon :: pad t.minute 2 ++ chColon :: pad t.second 2 ++ chDot :: pad t.ms 3 ++ [chZ]

/-- The destination printed: the request's, or the broadcast value 255 when it gives none (R78). -/
def effectiveDst (dst : Option Byte) : Byte := dst.getD Config.broadcast

/-! ### Sub-parsers -/

/-- A new first character for the first field. -/
def consFirst (c : Byte) : List (List Byte) → List (List Byte)
  | [] => [[c]]
  | f :: fs => (c :: f) :: fs

/-- `split(c, ",")` (R83): cut at every `0x2C`; `k` commas give `k + 1` fields, which may be empty. -/
def splitComma : List Byte → List (List Byte)
  | [] => [[]]
  | c :: cs => if c = chComma then [] :: splitComma cs else consFirst c (splitComma cs)

/-- The value of a decimal digit character (R84). -/
def digitVal (c : Byte) : Option Nat :=
  if 0x30 ≤ c.toNat ∧ c.toNat ≤ 0x39 then some (c.toNat - 0x30) else none

/-- A digit string's value, `acc` being the value of the digits already read; none at a character that is no
digit. -/
def digitsFrom (acc : Nat) : List Byte → Option Nat
  | [] => some acc
  | c :: cs =>
    match digitVal c with
    | some d => digitsFrom (10 * acc + d) cs
    | none => none

/-- A digit string read as a decimal number (R84). -/
def digitsVal (f : List Byte) : Option Nat := digitsFrom 0 f

/-- `parse_dec(f, max)` (R84): non-empty, digits only, no leading zero but in `0` itself, at most `max`. -/
def parseDec (f : List Byte) (max : Nat) : Option Nat :=
  if f = [] then none
  else if f.head? = some chZero ∧ f ≠ [chZero] then none
  else
    match digitsVal f with
    | some v => if v ≤ max then some v else none
    | none => none

/-- The value of a hex digit character, either case (R84). -/
def hexVal (c : Byte) : Option Nat :=
  if 0x30 ≤ c.toNat ∧ c.toNat ≤ 0x39 then some (c.toNat - 0x30)
  else if 0x61 ≤ c.toNat ∧ c.toNat ≤ 0x66 then some (c.toNat - 0x61 + 10)
  else if 0x41 ≤ c.toNat ∧ c.toNat ≤ 0x46 then some (c.toNat - 0x41 + 10)
  else none

/-- `parse_hex2(f)` (R84): exactly two hex digits, either case. -/
def parseHex2 (f : List Byte) : Option Byte :=
  match f with
  | [h, l] =>
    match hexVal h, hexVal l with
    | some vh, some vl => some (BitVec.ofNat 8 (16 * vh + vl))
    | _, _ => none
  | _ => none

/-- `parse_hex2` of every token, or none if one of them is no token (R83). -/
def parseHexList : List (List Byte) → Option (List Byte)
  | [] => some []
  | f :: fs =>
    match parseHex2 f, parseHexList fs with
    | some b, some bs => some (b :: bs)
    | _, _ => none

/-- Positions `off .. off+w-1` of a field. -/
def slice (f : List Byte) (off w : Nat) : List Byte := (f.drop off).take w

/-- The marks of the timestamp field at their positions (R84, R49). -/
def tsMarks (f : List Byte) : Bool :=
  decide (f.length = 24 ∧ f[4]? = some chDash ∧ f[7]? = some chDash ∧ f[10]? = some chT ∧
    f[13]? = some chColon ∧ f[16]? = some chColon ∧ f[19]? = some chDot ∧ f[23]? = some chZ)

/-- `parse_ts(f)` (R84). -/
def parseTs (f : List Byte) : Option Timestamp :=
  if tsMarks f then
    match digitsVal (slice f 0 4), digitsVal (slice f 5 2), digitsVal (slice f 8 2), digitsVal (slice f 11 2),
        digitsVal (slice f 14 2), digitsVal (slice f 17 2), digitsVal (slice f 20 3) with
    | some year, some month, some day, some hour, some minute, some second, some ms =>
      mkTimestamp year month day hour minute second ms
    | _, _, _, _, _, _, _ => none
  else none

/-! ### The response on the pins -/

/-- Every result field absent: driven to zero, the lengths 0 (R14, D20). -/
def restResponse (status : BitVec 3) : RespPort where
  status := status
  inst := 0
  level0 := 0
  level1 := 0
  sw := ⟨false, false, false, false, false, false, false, false⟩
  payload := []
  plen := 0
  line := []
  llen := 0
  pgn := 0
  src := 0
  dst := 0
  ts := { year := 0, month := 0, day := 0, hour := 0, minute := 0, second := 0, ms := 0 }

/-- The port binding of a response (R14): the result fields of its operation (R44), every other field
absent. -/
def pinsOf (r : Response) : RespPort :=
  match r with
  | .decoded m =>
    { restResponse (statusOf r) with
      inst := BitVec.ofInt 8 m.inst, level0 := BitVec.ofInt 16 m.level0, level1 := BitVec.ofInt 16 m.level1,
      sw := m.sw }
  | .encoded p => { restResponse (statusOf r) with payload := p, plen := BitVec.ofNat 16 p.length }
  | .formatted l => { restResponse (statusOf r) with line := l, llen := BitVec.ofNat 16 l.length }
  | .parsed x =>
    { restResponse (statusOf r) with
      ts := driveTs x.ts, pgn := x.pgn, src := x.src, dst := x.dst, payload := x.payload,
      plen := BitVec.ofNat 16 x.payload.length }
  | .fault _ => restResponse (statusOf r)

end Sys2Proof.Machine
end

