-- ==== Sys2Proof/Machine/FrameCodec.lean ====
section
/-! DEFINITION. Machine/FrameCodec.lean: the Frame Codec family, DECODE and ENCODE (R58 to R71). -/

namespace Sys2Proof.Machine

/-- What DECODE makes of a payload (R63): the length first, then the fields in the order of their offsets
(R109). Bytes 0 and 1 are never read. -/
def decodeFrame (p : List Byte) : Except FaultName ModuleState :=
  if h : p.length = Config.frameLen then
    if memRead8 p 2 (by simp [h, Config.frameLen]) > Config.instanceMax then .error .outOfRangeInstance
    else if rd16 p 3 (by simp [h, Config.frameLen]) > Config.dimmerMax then .error .outOfRangeDimmer
    else if rd16 p 5 (by simp [h, Config.frameLen]) > Config.dimmerMax then .error .outOfRangeDimmer
    else
      .ok { inst := memRead8 p 2 (by simp [h, Config.frameLen]),
            level0 := rd16 p 3 (by simp [h, Config.frameLen]),
            level1 := rd16 p 5 (by simp [h, Config.frameLen]),
            sw := unpack8 (memRead8 p 7 (by simp [h, Config.frameLen])) }
  else .error .malformedFrame

/-- The eight bytes ENCODE writes for values in range (R64). Every offset is written. -/
def writeFrame (inst level0 level1 : Nat) (sw : Switches) : List Byte :=
  memWrite8
    (wr16 (wr16 (memWrite8 (memWrite8 (memWrite8 (List.replicate Config.frameLen 0) 0 Config.tag0) 1 Config.tag1) 2 inst)
      3 level0) 5 level1) 7 (pack8 sw)

/-- What ENCODE makes of a ModuleState (R64): the range checks in the order of R109, then the frame. -/
def encodeFrame (m : ModuleState) : Except FaultName (List Byte) :=
  if !instInRange m.inst then .error .outOfRangeInstance
  else if !levelInRange m.level0 then .error .outOfRangeDimmer
  else if !levelInRange m.level1 then .error .outOfRangeDimmer
  else .ok (writeFrame m.inst.toNat m.level0.toNat m.level1.toNat m.sw)

/-- DECODE (R63). -/
def execDecode (payload : List Byte) (s : State) : Outcome :=
  whenPopulated s
    (match decodeFrame payload with
     | .ok m => deliver (.decoded m) s
     | .error f => raise f s)

/-- ENCODE (R64). -/
def execEncode (inst level0 level1 : Int) (sw : Switches) (s : State) : Outcome :=
  whenPopulated s
    (match encodeFrame { inst := inst, level0 := level0, level1 := level1, sw := sw } with
     | .ok p => deliver (.encoded p) s
     | .error f => raise f s)

end Sys2Proof.Machine
end

