-- ==== Sys2Proof/Machine/FrameFormat.lean ====
section
/-! DEFINITION. Machine/FrameFormat.lean: the table's row WF2. -/

namespace Sys2Proof.Machine

/-- WF2 is "Not an operation" (opcode_table.json); "The whole operation set is the four rows" of R41 (R116)
and "No encoding executes as a no-op or as another operation" (R55). A bare frame on the request port is
therefore refused by name, whatever its fields hold (log 3). -/
def execWf2 (_f : WireFrame) (_s : State) : Outcome := .refused .notAnOperation

end Sys2Proof.Machine
end

