-- ==== Sys2Proof/Machine/SerialFormatter.lean ====
section
/-! DEFINITION. Machine/SerialFormatter.lean: the Serial Frame Formatter family, FORMAT and PARSE (R72 to
R87). -/

namespace Sys2Proof.Machine

/-- The line of a payload short enough (R77): six fields, each closed by a comma, then the hex tokens in
payload order. With an empty payload the line ends in the sixth comma (R81). -/
def renderLine (upper : Bool) (pgn : BitVec 32) (payload : List Byte) (src dst : Byte) (ts : Timestamp) :
    List Byte :=
  renderTs ts ++ chComma :: dec Config.priority ++ chComma :: dec pgn.toNat ++ chComma :: dec src.toNat ++
    chComma :: dec dst.toNat ++ chComma :: dec payload.length ++
    chComma :: joinWith chComma (payload.map (hex2 upper))

/-- What FORMAT makes of its operands (R77, R79). -/
def formatLine (upper : Bool) (pgn : BitVec 32) (payload : List Byte) (src : Byte) (dst : Option Byte)
    (ts : Timestamp) : Except FaultName (List Byte) :=
  if payload.length > Config.maxPayloadLen then .error .invalidPayloadLength
  else .ok (renderLine upper pgn payload src (effectiveDst dst) ts)

/-- The payload of a line whose length field says `n`, from the fields behind it (R83). -/
def parsePayload (n : Nat) (toks : List (List Byte)) : Option (List Byte) :=
  if n = 0 then (if toks = [[]] then some [] else none)
  else if toks.length = n then parseHexList toks
  else none

/-- What PARSE makes of a line (R83); none is MalformedLine, the one fault of the operation. -/
def parseLine (c : List Byte) : Option LineFields :=
  match splitComma c with
  | f1 :: f2 :: f3 :: f4 :: f5 :: f6 :: tok :: toks =>
    if f2 = dec Config.priority then
      match parseTs f1, parseDec f3 4294967295, parseDec f4 255, parseDec f5 255, parseDec f6 255 with
      | some t, some g, some s, some d, some n =>
        match parsePayload n (tok :: toks) with
        | some p =>
          some { ts := t, pgn := BitVec.ofNat 32 g, src := BitVec.ofNat 8 s, dst := BitVec.ofNat 8 d, payload := p }
        | none => none
      | _, _, _, _, _ => none
    else none
  | _ => none

/-- FORMAT (R77). -/
def execFormat (pgn : BitVec 32) (payload : List Byte) (src : Byte) (dst : Option Byte) (ts : Timestamp)
    (s : State) : Outcome :=
  whenPopulated s
    (match formatLine s.hexUpper pgn payload src dst ts with
     | .ok l => deliver (.formatted l) s
     | .error f => raise f s)

/-- PARSE (R83). -/
def execParse (line : List Byte) (s : State) : Outcome :=
  whenPopulated s
    (match parseLine line with
     | some x => deliver (.parsed x) s
     | none => raise .malformedLine s)

end Sys2Proof.Machine
end

