-- ==== Sys2Proof/Machine/Dispatch.lean ====
section
/-! DEFINITION. Machine/Dispatch.lean: one arm per constructor of Instr, each one call of its meaning. -/

namespace Sys2Proof.Machine

def exec (i : Instr) (s : State) : Host.Outcome State Fault Refusal :=
  match i with
  | .decode payload => Sys2Proof.Machine.execDecode payload s
  | .encode inst level0 level1 sw => Sys2Proof.Machine.execEncode inst level0 level1 sw s
  | .format pgn payload src dst ts => Sys2Proof.Machine.execFormat pgn payload src dst ts s
  | .parse line => Sys2Proof.Machine.execParse line s
  | .wf2 f => Sys2Proof.Machine.execWf2 f s

end Sys2Proof.Machine
end

