-- ==== Sys2Proof/Machine/Step.lean ====
section
/-! DEFINITION. Machine/Step.lean: one step of the block: it takes the oldest request and answers it (R4,
R12), or waits while there is none (R119). -/

namespace Sys2Proof.Machine

/-- One step. With no request pending the block waits, its state unchanged (log 6). A word on the port that is
no request is refused (R9, U6); under another data model nothing runs (R21, U4). -/
def step (s : State) : Host.Outcome State Fault Refusal :=
  whenPopulated s
    (match fetch s with
     | none => .next s
     | some (w, s') =>
       match decode w with
       | .ok i => exec i s'
       | .error e => .refused (.notARequest e))

/-- `s` with a word of the opcode table as the very next thing on the request port (log 2). -/
def State.withFetchWord (s : State) (nbits w : Nat) : State :=
  { s with requests := portOfTableWord nbits w :: s.requests }

end Sys2Proof.Machine
end

