-- ==== Sys2Proof/Machine/Bridge.lean ====
section
/-! DEFINITION. Machine/Bridge.lean: the contract of the block's host, the Bridge (42_bridge_contract, R88 to
R101). It is NOT part of the block (R3a) and no step calls it; it says how a host uses DECODE, ENCODE and
FORMAT. What the spec leaves open is an argument or a free value (log 12). -/

namespace Sys2Proof.Machine

/-- An inbound bus message: explicit numeric PGN and manufacturer code, and the raw payload (R89, R100). -/
structure BusMessage where
  pgn : Nat
  manufacturer : Nat
  raw : List Byte
deriving DecidableEq, Repr

/-- The filter, two explicit equality checks (R89). -/
def bridgeAccepts (m : BusMessage) : Bool :=
  decide (m.pgn = Config.empirbusPgn.toNat ∧ m.manufacturer = Config.empirbusMfrCode)

/-- One of the ten channels of an instance (R90). -/
inductive Channel where
  | dimmer (k : Fin 2)
  | switch (i : Fin 8)
deriving DecidableEq, Repr

/-- A published value: a dimmer's ratio, or a switch's "on" (`true`) or "off" (R92). -/
inductive ChannelValue where
  | ratio (q : Rat)
  | onOff (on : Bool)
deriving DecidableEq, Repr

/-- One state update, stamped at publish time (R90, R91). -/
structure Update where
  inst : Nat
  channel : Channel
  value : ChannelValue
  stamp : Timestamp
deriving DecidableEq, Repr

/-- The character codes of a text. -/
def ascii (t : String) : List Byte := t.toList.map (fun c => BitVec.ofNat 8 c.toNat)

/-- The path of a channel, instance and index in decimal without padding (R91). -/
def updatePath (inst : Nat) : Channel → List Byte
  | .dimmer k => ascii "electrical.empirBusNxt." ++ dec inst ++ ascii ".dimmers." ++ dec k.val ++ ascii ".state"
  | .switch i => ascii "electrical.empirBusNxt." ++ dec inst ++ ascii ".switches." ++ dec i.val ++ ascii ".state"

/-- The categorical value of a switch (R92). -/
def switchText (on : Bool) : List Byte := if on then ascii "on" else ascii "off"

/-- Dimmer `k`'s level. -/
def levelOf (m : ModuleState) (k : Fin 2) : Int := if k = 0 then m.level0 else m.level1

/-- The value of a channel in a decoded state (R92). -/
def channelValue (m : ModuleState) : Channel → ChannelValue
  | .dimmer k => .ratio (ratioOfLevel (levelOf m k))
  | .switch i => .onOff (swGet m.sw i)

/-- The ten channels, two dimmers and eight switches (R90). -/
def allChannels : List Channel :=
  [.dimmer 0, .dimmer 1, .switch 0, .switch 1, .switch 2, .switch 3, .switch 4, .switch 5, .switch 6, .switch 7]

/-- One update per channel (R90). -/
def publish (stamp : Timestamp) (m : ModuleState) : List Update :=
  allChannels.map (fun c => { inst := m.inst.toNat, channel := c, value := channelValue m c, stamp := stamp })

/-- What the inbound path does with one message. -/
inductive Inbound where
  /-- The filter does not match: ignored without a fault (R89). -/
  | ignored
  /-- DECODE faulted: dropped with a warning, nothing published (R93). -/
  | dropped (f : FaultName)
  | published (us : List Update)
deriving DecidableEq, Repr

/-- The inbound path: filter, DECODE, publish (R89, R90, R93). -/
def inbound (stamp : Timestamp) (m : BusMessage) : Inbound :=
  if bridgeAccepts m then
    match decodeFrame m.raw with
    | .ok st => .published (publish stamp st)
    | .error f => .dropped f
  else .ignored

/-- The store of last-known states, instance to state, keys rising (R96). -/
abbrev Store := List (Int × ModuleState)

/-- The last-known state of an instance, if any (R96). -/
def storeGet (k : Int) : Store → Option ModuleState
  | [] => none
  | (j, m) :: rest => if k = j then some m else storeGet k rest

/-- The store with the state of one instance replaced or added (R96). -/
def storeSet (k : Int) (m : ModuleState) : Store → Store
  | [] => [(k, m)]
  | (j, n) :: rest =>
    if k < j then (k, m) :: (j, n) :: rest
    else if k = j then (k, m) :: rest
    else (j, n) :: storeSet k m rest

/-- The store after an inbound message. Whether the inbound path writes it is open (N14, U12): `learns` says
(log 12). -/
def storeAfterInbound (learns : Bool) (store : Store) (m : BusMessage) : Store :=
  if learns && bridgeAccepts m then
    match decodeFrame m.raw with
    | .ok st => storeSet st.inst st store
    | .error _ => store
  else store

/-- DEFAULT_POLICY (R95, U5). -/
inductive DefaultPolicy where
  | defaultZero
  | reject
deriving DecidableEq, Repr

/-- The requested change of one channel (R99). -/
inductive Change where
  | switchTo (i : Fin 8) (on : Bool)
  | dimmerRatio (k : Fin 2) (q : Rat)
  | dimmerPercent (k : Fin 2) (q : Rat)
deriving DecidableEq, Repr

/-- An outbound command (R99). -/
structure Command where
  inst : Int
  change : Change
deriving DecidableEq, Repr

/-- A state with dimmer `k` at a level. -/
def setLevel (m : ModuleState) (k : Fin 2) (v : Int) : ModuleState :=
  if k = 0 then { m with level0 := v } else { m with level1 := v }

/-- The change merged into the whole state of the instance (R94, R99, R123). -/
def mergeChange (m : ModuleState) : Change → ModuleState
  | .switchTo i on => { m with sw := swSet m.sw i on }
  | .dimmerRatio k q => setLevel m k (levelOfRatio q)
  | .dimmerPercent k q => setLevel m k (levelOfRatio (q / 100))

/-- The default state of an instance: both levels 0, all switches off (R95). -/
def defaultState (inst : Int) : ModuleState where
  inst := inst
  level0 := 0
  level1 := 0
  sw := ⟨false, false, false, false, false, false, false, false⟩

/-- The state a command starts from (R94, R95). -/
def priorState (policy : DefaultPolicy) (store : Store) (inst : Int) : Option ModuleState :=
  match storeGet inst store with
  | some m => some { m with inst := inst }
  | none =>
    match policy with
    | .defaultZero => some (defaultState inst)
    | .reject => none

/-- What the outbound path does with one command. -/
inductive Outbound where
  /-- The command is rejected and nothing is emitted (R98). -/
  | rejected (f : FaultName)
  /-- A line for the transport, and the store after the command. -/
  | emitted (line : List Byte) (store : Store)
deriving DecidableEq, Repr

/-- The outbound path: build the whole state, ENCODE, FORMAT to the broadcast destination, emit (R94, R98). -/
def outbound (upper : Bool) (policy : DefaultPolicy) (src : Byte) (ts : Timestamp) (store : Store)
    (c : Command) : Outbound :=
  match priorState policy store c.inst with
  | none => .rejected .unknownInstance
  | some m =>
    match encodeFrame (mergeChange m c.change) with
    | .error f => .rejected f
    | .ok p =>
      match formatLine upper Config.empirbusPgn p src none ts with
      | .error f => .rejected f
      | .ok l => .emitted l (storeSet c.inst (mergeChange m c.change) store)

end Sys2Proof.Machine
end

