-- ==== Sys2Proof/Machine/Grammar.lean ====
section
/-! DEFINITION. Machine/Grammar.lean: the SerialLine grammar of R47, written from its ABNF with the values the
productions spell, independently of FORMAT and PARSE. Claims about the two are stated in its terms. -/

namespace Sys2Proof.Machine

/-- `DIGIT`, and the number it spells (R47). -/
def GDigit (c : Byte) (v : Nat) : Prop := v ≤ 9 ∧ c.toNat = 0x30 + v

/-- A string of `DIGIT`s, and the decimal number it spells. -/
inductive GDigits : List Byte → Nat → Prop where
  | nil : GDigits [] 0
  | snoc (f : List Byte) (c : Byte) (v d : Nat) : GDigits f v → GDigit c d → GDigits (f ++ [c]) (10 * v + d)

/-- `decnum = "0" / ( NZDIGIT *DIGIT )` (R47), and the number it spells. -/
def GDecnum (f : List Byte) (v : Nat) : Prop :=
  (f = [0x30] ∧ v = 0) ∨ (GDigits f v ∧ ∃ c d rest, f = c :: rest ∧ GDigit c d ∧ d ≠ 0)

/-- `HEXDIG` of either case (R47), and the number it spells. -/
def GHexdig (c : Byte) (v : Nat) : Prop :=
  (v ≤ 9 ∧ c.toNat = 0x30 + v) ∨
    (10 ≤ v ∧ v ≤ 15 ∧ (c.toNat = 0x61 + (v - 10) ∨ c.toNat = 0x41 + (v - 10)))

/-- `hexbyte = HEXDIG HEXDIG`, high nibble first (R47). -/
def GHexbyte (f : List Byte) (b : Byte) : Prop :=
  ∃ h l vh vl, f = [h, l] ∧ GHexdig h vh ∧ GHexdig l vl ∧ b.toNat = 16 * vh + vl

/-- `*( "," hexbyte )` (R47). -/
inductive GHexrest : List Byte → List Byte → Prop where
  | nil : GHexrest [] []
  | cons (f l : List Byte) (b : Byte) (bs : List Byte) :
      GHexbyte f b → GHexrest l bs → GHexrest (0x2C :: (f ++ l)) (b :: bs)

/-- `hexlist = [ hexbyte *( "," hexbyte ) ]` (R47), and the bytes it spells. -/
def GHexlist (l bs : List Byte) : Prop :=
  (l = [] ∧ bs = []) ∨ ∃ f rest b bs', l = f ++ rest ∧ bs = b :: bs' ∧ GHexbyte f b ∧ GHexrest rest bs'

/-- `ts` (R47): fixed groups of digits and the marks between them, and the instant they spell. -/
def GTs (l : List Byte) (t : Timestamp) : Prop :=
  ∃ y mo d h mi s ms : List Byte,
    l = y ++ [0x2D] ++ mo ++ [0x2D] ++ d ++ [0x54] ++ h ++ [0x3A] ++ mi ++ [0x3A] ++ s ++ [0x2E] ++ ms ++ [0x5A] ∧
    y.length = 4 ∧ mo.length = 2 ∧ d.length = 2 ∧ h.length = 2 ∧ mi.length = 2 ∧ s.length = 2 ∧ ms.length = 3 ∧
    GDigits y t.year ∧ GDigits mo t.month ∧ GDigits d t.day ∧ GDigits h t.hour ∧ GDigits mi t.minute ∧
    GDigits s t.second ∧ GDigits ms t.ms

/-- `line = ts "," prio "," pgn "," src "," dst "," plen "," hexlist` (R47), and the fields it spells: `plen`
is the number of hex tokens, at most 255. -/
def GLine (l : List Byte) (x : LineFields) : Prop :=
  ∃ ts pgn src dst plen hexlist : List Byte,
    l = ts ++ [0x2C] ++ [0x32] ++ [0x2C] ++ pgn ++ [0x2C] ++ src ++ [0x2C] ++ dst ++ [0x2C] ++ plen ++ [0x2C] ++
      hexlist ∧
    GTs ts x.ts ∧ GDecnum pgn x.pgn.toNat ∧ GDecnum src x.src.toNat ∧ GDecnum dst x.dst.toNat ∧
    GDecnum plen x.payload.length ∧ x.payload.length ≤ 255 ∧ GHexlist hexlist x.payload

end Sys2Proof.Machine
end

