-- ==== Sys2Proof/Machine/HostPort.lean ====
section
/-! DEFINITION. Machine/HostPort.lean: what the host does at the block's ports between steps (R4, R11, R101):
it presents requests, takes responses, reads the response pins, and applies reset. -/

namespace Sys2Proof.Machine

/-- The host presents one more word on the request port, behind the ones not yet answered (R12). -/
def present (w : PortWord) (s : State) : State := { s with requests := s.requests ++ [w] }

/-- A program, a finite list of requests (R20), presented in order. -/
def presentAll (ws : List PortWord) (s : State) : State := { s with requests := s.requests ++ ws }

/-- The host takes the oldest response (R12), if one is pending. -/
def takeResponse (s : State) : Option (Response × State) :=
  match s.responses with
  | [] => none
  | r :: rest => some (r, { s with responses := rest })

/-- The host reads the response pins: the oldest pending response in its port binding (R14); while none is
pending the pins have no defined value (R23, U8), a fresh free value at each such read (log 7). -/
def readResponse (s : State) : RespPort × State :=
  match s.responses with
  | [] => (Config.idleResponse s.idleReads, { s with idleReads := s.idleReads + 1 })
  | r :: _ => (pinsOf r, s)

/-- Reset, applied by the host between steps: both ports idle, a request not yet answered dropped, the static
inputs unaffected (R119, R120, R23; log 14). -/
def applyReset (s : State) : State := { s with requests := [], responses := [] }

end Sys2Proof.Machine
end

