-- ==== Sys2Proof/Safety.lean ====
section
/-! DEFINITION. Safety.lean: what a well-formed value, a sound response and a sound state are, in the terms
claims use. -/

namespace Sys2Proof.Machine

/-- A well-formed ModuleState (R67, R15). -/
abbrev StateWellFormed (m : ModuleState) : Prop :=
  0 ≤ m.inst ∧ m.inst ≤ 49 ∧ 0 ≤ m.level0 ∧ m.level0 ≤ 1000 ∧ 0 ≤ m.level1 ∧ m.level1 ≤ 1000

/-- A well-formed WireFrame (R67): eight bytes, canonical tags, instance and both little-endian dimmers in
range. -/
def FrameWellFormed (p : List Byte) : Prop :=
  ∃ i l0 h0 l1 h1 sw : Byte, p = [0x30, 0x99, i, l0, h0, l1, h1, sw] ∧ i.toNat ≤ 49 ∧
    l0.toNat + 256 * h0.toNat ≤ 1000 ∧ l1.toNat + 256 * h1.toNat ≤ 1000

/-- The character codes FORMAT may emit under a setting of HEX_UPPER (R33). -/
def lineChar (upper : Bool) (c : Byte) : Bool :=
  (decide (0x30 ≤ c.toNat ∧ c.toNat ≤ 0x39)) || c == 0x2D || c == 0x3A || c == 0x2E || c == 0x2C || c == 0x54 ||
    c == 0x5A ||
    (if upper then decide (0x41 ≤ c.toNat ∧ c.toNat ≤ 0x46) else decide (0x61 ≤ c.toNat ∧ c.toNat ≤ 0x66))

/-- Upper-case hex letters in lower case, every other character as it is. -/
def lowerHex (c : Byte) : Byte := if 0x41 ≤ c.toNat ∧ c.toNat ≤ 0x46 then c + 0x20 else c

/-- Hex letters in the case a setting of HEX_UPPER selects (R86), every other character as it is. -/
def hexCase (upper : Bool) (c : Byte) : Byte :=
  if upper then (if 0x61 ≤ c.toNat ∧ c.toNat ≤ 0x66 then c - 0x20 else c) else lowerHex c

/-- What a host may rely on in a response (R14, R15, R33, R67, R80, R107). -/
def ResponseSound (upper : Bool) : Response → Prop
  | .decoded m => StateWellFormed m
  | .encoded p => FrameWellFormed p
  | .formatted l => 35 ≤ l.length ∧ l.length ≤ 814 ∧ ∀ c ∈ l, lineChar upper c = true
  | .parsed x => x.payload.length ≤ 255
  | .fault f => f ≠ .unknownInstance

/-- The pins of a timestamp hold the values of `t` (R17). -/
abbrev PinsHold (p : TsPins) (t : Timestamp) : Prop :=
  p.year.toNat = t.year ∧ p.month.toNat = t.month ∧ p.day.toNat = t.day ∧ p.hour.toNat = t.hour ∧
    p.minute.toNat = t.minute ∧ p.second.toNat = t.second ∧ p.ms.toNat = t.ms

/-- The ENCODE transaction of a ModuleState (R15, R64). -/
abbrev encodeOf (m : ModuleState) : Instr := .encode m.inst m.level0 m.level1 m.sw

/-- DATA_MODEL is 2, the one populated data model (R5, R21). -/
abbrev Populated (s : State) : Prop := s.dataModel = 2#3

/-- The transaction `i`, issued at `s`, answers with the response `r` and changes nothing else: the static
inputs, the requests still pending and the earlier responses are as before (R10, R108). -/
def Answers (i : Instr) (s : State) (r : Response) : Prop :=
  exec i s = .next { s with responses := s.responses ++ [r] }

/-- The four operations (R41, R116); the table's row WF2 is none. -/
def isOperation : Instr → Bool
  | .decode _ => true
  | .encode _ _ _ _ => true
  | .format _ _ _ _ _ => true
  | .parse _ => true
  | .wf2 _ => false

/-- Every pending response is sound. -/
def State.Inv (s : State) : Prop := ∀ r ∈ s.responses, ResponseSound s.hexUpper r

end Sys2Proof.Machine
end

