-- ==== Sys2Proof/Certificates/Slice0/Obligations.lean ====
section
/-! DEFINITION. Certificates/Slice0/Obligations.lean: the statements for the provers. `Answers i s r` says that
`exec i s` answers the next state in which the response `r` stands behind the earlier ones and nothing else has
changed; `Populated s` says that DATA_MODEL is 2. -/

open Sys2Proof Sys2Proof.Machine

/-! ### The request port and the decoder -/

/-- Every instruction the ports can present is read back from what the encoder puts on them (R13, R41, R45):
no operand bit is dropped. -/
def Obligations.EncodedInstructionDecodesBack : Prop :=
  ∀ i : Instr, i.wellFormed = true → decode (encode i) = .ok i

/-- R41: the four selector values and the operation each selects; there is no other value. -/
def Obligations.EverySelectorValueSelectsItsOperation : Prop :=
  ∀ r : ReqPort,
    (r.op = 0#2 ∨ r.op = 1#2 ∨ r.op = 2#2 ∨ r.op = 3#2) ∧
    (r.op = 0#2 → r.payload.length = r.plen.toNat → decode (.request r) = .ok (.decode r.payload)) ∧
    (r.op = 1#2 →
      decode (.request r) = .ok (.encode r.inst.toNat r.level0.toInt r.level1.toInt r.sw)) ∧
    (r.op = 2#2 → r.payload.length = r.plen.toNat → ∀ t : Timestamp, PinsHold r.ts t →
      decode (.request r) =
        .ok (.format r.pgn r.payload r.src (if r.dstPresent = true then some r.dst else none) t)) ∧
    (r.op = 3#2 → r.line.length = r.llen.toNat → decode (.request r) = .ok (.parse r.line))

/-- R24, R44: two request records that agree on the fields their operation reads are read alike, whatever the
other fields hold. -/
def Obligations.UnreadRequestFieldsAreIgnored : Prop :=
  ∀ r r' : ReqPort, r.op = r'.op →
    (r.op = 0#2 → r.payload = r'.payload → r.plen = r'.plen →
      decode (.request r) = decode (.request r')) ∧
    (r.op = 1#2 → r.inst = r'.inst → r.level0 = r'.level0 → r.level1 = r'.level1 → r.sw = r'.sw →
      decode (.request r) = decode (.request r')) ∧
    (r.op = 2#2 → r.pgn = r'.pgn → r.payload = r'.payload → r.plen = r'.plen → r.src = r'.src →
      r.dstPresent = r'.dstPresent → (r.dstPresent = true → r.dst = r'.dst) → r.ts = r'.ts →
      decode (.request r) = decode (.request r')) ∧
    (r.op = 3#2 → r.line = r'.line → r.llen = r'.llen → decode (.request r) = decode (.request r'))

/-- R9, R17 and entry U6: what does not have the types of a request is refused by name. The names and which is
given first are the model's own (log 9). -/
def Obligations.IllTypedRequestsAreRefusedByName : Prop :=
  ∀ (s : State) (r : ReqPort) (rest : List PortWord), Populated s → s.requests = .request r :: rest →
    (r.op = 0#2 ∨ r.op = 2#2 → r.payload.length ≠ r.plen.toNat →
      step s = .refused (.notARequest .plenMismatch)) ∧
    (r.op = 3#2 → r.line.length ≠ r.llen.toNat → step s = .refused (.notARequest .llenMismatch)) ∧
    (r.op = 2#2 → r.payload.length = r.plen.toNat → (∀ t : Timestamp, ¬ PinsHold r.ts t) →
      step s = .refused (.notARequest .timestampOutOfRange))

/-- R29, which the spec marks as derived: the 64-bit little-endian view of the eight bytes, and where the
fields stand in it. -/
def Obligations.IntegerViewOfAFrame : Prop :=
  ∀ (b0 b1 b2 b3 b4 b5 b6 b7 : Byte) (W : FrameWord), W = frameWordOf [b0, b1, b2, b3, b4, b5, b6, b7] →
    W.toNat = b0.toNat + b1.toNat * 2 ^ 8 + b2.toNat * 2 ^ 16 + b3.toNat * 2 ^ 24 + b4.toNat * 2 ^ 32 +
      b5.toNat * 2 ^ 40 + b6.toNat * 2 ^ 48 + b7.toNat * 2 ^ 56 ∧
    W.extractLsb' 0 8 = b0 ∧ W.extractLsb' 8 8 = b1 ∧
    (b0 = 0x30 → b1 = 0x99 → W.extractLsb' 0 16 = 0x9930#16) ∧
    W.extractLsb' 16 8 = b2 ∧
    (W.extractLsb' 24 16).toNat = b3.toNat + 256 * b4.toNat ∧
    (W.extractLsb' 40 16).toNat = b5.toNat + 256 * b6.toNat ∧
    W.extractLsb' 56 8 = b7 ∧ ∀ i : Fin 8, W.getLsbD (56 + i.val) = b7.getLsbD i.val

/-- R45, R46: a 64-bit word is read as the frame `f` exactly if it matches and is the word of `f`, and the word
of a frame is the integer view of its eight bytes in byte order. -/
def Obligations.WireFramePatternRoundTrips : Prop :=
  (∀ (f : WireFrame) (w : FrameWord),
    frameOfWord w = some f ↔ w &&& 0xFFFF#64 = 0x9930#64 ∧ w = wordOfFrame f) ∧
  ∀ f : WireFrame, wordOfFrame f &&& 0xFFFF#64 = 0x9930#64 ∧
    wordOfFrame f =
      frameWordOf [0x30, 0x99, f.inst, f.dimmer0.extractLsb' 0 8, f.dimmer0.extractLsb' 8 8,
        f.dimmer1.extractLsb' 0 8, f.dimmer1.extractLsb' 8 8, f.switches]

/-- One word of each row, written out from R13, R41 and R45, decodes to what it stands for. -/
def Obligations.SampleWordsDecode : Prop :=
  decode (.request { restPort with
      op := 0b00, payload := [0x30, 0x99, 0x07, 0xF4, 0x01, 0x00, 0x00, 0x05], plen := 8 }) =
    .ok (.decode [0x30, 0x99, 0x07, 0xF4, 0x01, 0x00, 0x00, 0x05]) ∧
  decode (.request { restPort with
      op := 0b01, inst := 0x07, level0 := 0x000001F4, level1 := 0xFFFFFFFF,
      sw := ⟨true, false, true, false, false, false, false, false⟩ }) =
    .ok (.encode 7 500 (-1) ⟨true, false, true, false, false, false, false, false⟩) ∧
  decode (.request { restPort with op := 0b11, line := [0x32, 0x2C], llen := 2 }) = .ok (.parse [0x32, 0x2C]) ∧
  decode (.frame 0x05000001F4079930) =
    .ok (.wf2 { inst := 7, dimmer0 := 500, dimmer1 := 0, switches := 0x05 })

/-! ### A step -/

/-- R4, R12: a step takes the oldest request and runs the instruction it decodes to. -/
def Obligations.StepRunsTheDecodedInstruction : Prop :=
  ∀ (s : State) (w : PortWord) (rest : List PortWord) (i : Instr),
    Populated s → s.requests = w :: rest → decode w = .ok i → step s = exec i { s with requests := rest }

/-- R119: with no request pending nothing happens. That a step is still taken is the model's choice
(log 6). -/
def Obligations.IdleBlockWaits : Prop :=
  ∀ s : State, Populated s → s.requests = [] → step s = .next s

/-- R21 and entry U4: under a data model other than 2 nothing runs; that this covers FORMAT, PARSE and the idle step
is log 5. -/
def Obligations.OtherDataModelsAreRefused : Prop :=
  ∀ s : State, s.dataModel ≠ 2#3 →
    step s = .refused .dataModelNotPopulated ∧
    ∀ i : Instr, isOperation i = true → exec i s = .refused .dataModelNotPopulated

/-- The table's row WF2 is "Not an operation" (R116, R55): it stops by name on every path, and a step that
meets a bare frame on the port stops so too. -/
def Obligations.BareFrameIsNoOperation : Prop :=
  (∀ (f : WireFrame) (s : State), exec (.wf2 f) s = .refused .notAnOperation) ∧
  ∀ (s : State) (w : FrameWord) (rest : List PortWord), Populated s → s.requests = .frame w :: rest →
    step s = .refused (if w &&& 0xFFFF#64 = 0x9930#64 then .notAnOperation else .notARequest .frameTagMismatch)

/-- The frame of every operation (R10, R108): when `exec` answers a next state, one response has been added
and the static inputs, the pending requests with all their bytes, the earlier responses and the counter are
unchanged. -/
def Obligations.ExecChangesOnlyTheResponsePort : Prop :=
  ∀ (i : Instr) (s t : State), exec i s = .next t →
    t.dataModel = s.dataModel ∧ t.hexUpper = s.hexUpper ∧ t.requests = s.requests ∧ t.idleReads = s.idleReads ∧
    ∃ r : Response, t.responses = s.responses ++ [r]

/-- R44, which the spec marks as derived: the results and the faults each operation can answer with. -/
def Obligations.EachOperationAnswersItsOwnResultsAndFaults : Prop :=
  (∀ (p : List Byte) (s : State) (r : Response), Answers (.decode p) s r →
    (∃ m, r = .decoded m) ∨ r = .fault .malformedFrame ∨ r = .fault .outOfRangeInstance ∨
      r = .fault .outOfRangeDimmer) ∧
  (∀ (v l0 l1 : Int) (sw : Switches) (s : State) (r : Response), Answers (.encode v l0 l1 sw) s r →
    (∃ p, r = .encoded p ∧ p.length = 8) ∨ r = .fault .outOfRangeInstance ∨ r = .fault .outOfRangeDimmer) ∧
  (∀ (g : BitVec 32) (p : List Byte) (a : Byte) (d : Option Byte) (ts : Timestamp) (s : State) (r : Response),
    Answers (.format g p a d ts) s r → (∃ l, r = .formatted l) ∨ r = .fault .invalidPayloadLength) ∧
  (∀ (l : List Byte) (s : State) (r : Response), Answers (.parse l) s r →
    (∃ x, r = .parsed x) ∨ r = .fault .malformedLine)

/-- R12: a step answers the oldest request, with one response behind the earlier ones (the ports as lists are log
1), or waits when there is none (log 6). -/
def Obligations.StepAnswersTheOldestRequestOnly : Prop :=
  ∀ s t : State, step s = .next t →
    (s.requests = [] ∧ t = s) ∨
    ∃ (w : PortWord) (rest : List PortWord) (r : Response), s.requests = w :: rest ∧
      t = { s with requests := rest, responses := s.responses ++ [r] }

/-- R128, which the spec marks as derived, and R9: whatever request record is read as a request gets its one
response in one step. -/
def Obligations.EveryRequestIsAnsweredInOneStep : Prop :=
  ∀ (s : State) (q : ReqPort) (rest : List PortWord) (i : Instr),
    Populated s → s.requests = .request q :: rest → decode (.request q) = .ok i →
    ∃ r : Response, step s = .next { s with requests := rest, responses := s.responses ++ [r] }

/-- R10, R12, R20, R36, with the ports as lists (log 1): under a setting of the static inputs there is one answer to each request, the same at
every time and in every order, and a program, a list of requests presented to an idle block, ends with the list
of the answers to its requests, in their order. -/
def Obligations.ProgramsAreAnsweredInOrder : Prop :=
  ∀ upper : Bool, ∃ answer : Instr → Response,
    (∀ (i : Instr) (s : State), isOperation i = true → Populated s → s.hexUpper = upper →
      Answers i s (answer i)) ∧
    ∀ (program : List Instr) (s : State), Populated s → s.hexUpper = upper → s.requests = [] →
      (∀ i ∈ program, i.wellFormed = true ∧ isOperation i = true) →
      Host.Core.run Sys2Proof.core program.length (presentAll (program.map encode) s) =
        .next { s with responses := s.responses ++ program.map answer }

/-- R10: the response depends on the request and the static inputs alone: not on what is pending, what was
answered before, or what the counter says. -/
def Obligations.ResponseDependsOnRequestAndInputsAlone : Prop :=
  ∀ (i : Instr) (s s' : State) (r : Response),
    s.dataModel = s'.dataModel → s.hexUpper = s'.hexUpper → Answers i s r → Answers i s' r

/-- R21: HEX_UPPER has no effect on DECODE, ENCODE and PARSE. -/
def Obligations.HexCaseReachesOnlyFormat : Prop :=
  ∀ (i : Instr) (s : State) (upper : Bool) (r : Response),
    (∀ g p a d ts, i ≠ .format g p a d ts) → Answers i s r → Answers i { s with hexUpper := upper } r

/-- R111: a faulted request leaves no mark: every later request is answered as if it had never been issued. -/
def Obligations.FaultsAreNotSticky : Prop :=
  ∀ (i : Instr) (s t : State) (f : FaultName), Answers i s (.fault f) → exec i s = .next t →
    ∀ (j : Instr) (r : Response), Answers j t r ↔ Answers j s r

/-! ### Invariant and reset -/

/-- R14, R15, R33, R67, R80, R107: every step keeps "each pending response is sound": decoded states and encoded
frames are well-formed, lines have 35 to 814 characters of the right alphabet, parsed payloads have at most 255
bytes, and no response is UnknownInstance. -/
def Obligations.StepKeepsPendingResponsesSound : Prop :=
  ∀ s t : State, s.Inv → step s = .next t → t.Inv

/-- R23, R118, R119, R21: after reset both ports are idle, the static inputs are at their defaults, and the
invariant holds. -/
def Obligations.ResetStateIsIdleAndSound : Prop :=
  State.reset.requests = [] ∧ State.reset.responses = [] ∧ State.reset.dataModel = 2#3 ∧
    State.reset.hexUpper = false ∧ State.reset.Inv

/-- R119, R120: reset leaves both ports idle and the static inputs as they are; the requests it drops get no
response and have no other effect. That responses not yet taken are dropped too is log 14. -/
def Obligations.ResetDropsWhatIsPending : Prop :=
  ∀ (s : State) (dropped : List PortWord), Populated s →
    (applyReset (presentAll dropped s)).requests = [] ∧ (applyReset (presentAll dropped s)).responses = [] ∧
    (applyReset (presentAll dropped s)).dataModel = s.dataModel ∧
    (applyReset (presentAll dropped s)).hexUpper = s.hexUpper ∧
    step (applyReset (presentAll dropped s)) = .next (applyReset s) ∧
    ∀ w : PortWord, step (present w (applyReset (presentAll dropped s))) = step (present w (applyReset s))

/-! ### Responses on the pins -/

/-- R43: the status numbers; a host reads the fault back from its number, and 0 and 7 are no fault's. -/
def Obligations.StatusNumbers : Prop :=
  faultCode .malformedFrame = 1#3 ∧ faultCode .outOfRangeDimmer = 2#3 ∧ faultCode .outOfRangeInstance = 3#3 ∧
    faultCode .invalidPayloadLength = 4#3 ∧ faultCode .unknownInstance = 5#3 ∧ faultCode .malformedLine = 6#3 ∧
  (∀ (c : BitVec 3) (f : FaultName), faultOfCode c = some f ↔ c = faultCode f) ∧
  ∀ r : Response, statusOf r = 0#3 ↔ ∀ f : FaultName, r ≠ .fault f

/-- R14, R108, R110: on a fault the pins carry its number and no result: every result field is zero, the
lengths 0. -/
def Obligations.FaultedResponsePinsAreZero : Prop :=
  ∀ (f : FaultName) (p : RespPort), p = pinsOf (.fault f) →
    p.status = faultCode f ∧ p.inst = 0 ∧ p.level0 = 0 ∧ p.level1 = 0 ∧ (∀ i : Fin 8, swGet p.sw i = false) ∧
    p.payload = [] ∧ p.plen = 0 ∧ p.line = [] ∧ p.llen = 0 ∧ p.pgn = 0 ∧ p.src = 0 ∧ p.dst = 0 ∧
    p.ts.year = 0 ∧ p.ts.month = 0 ∧ p.ts.day = 0 ∧ p.ts.hour = 0 ∧ p.ts.minute = 0 ∧ p.ts.second = 0 ∧
    p.ts.ms = 0

/-- R14: the pins of a sound response carry its result exactly: no field is cut to its port's width. -/
def Obligations.PinsCarryTheResult : Prop :=
  (∀ m : ModuleState, StateWellFormed m →
    ((pinsOf (.decoded m)).inst.toNat : Int) = m.inst ∧ ((pinsOf (.decoded m)).level0.toNat : Int) = m.level0 ∧
    ((pinsOf (.decoded m)).level1.toNat : Int) = m.level1 ∧ (pinsOf (.decoded m)).sw = m.sw ∧
    (pinsOf (.decoded m)).status = 0#3) ∧
  (∀ p : List Byte, FrameWellFormed p →
    (pinsOf (.encoded p)).payload = p ∧ (pinsOf (.encoded p)).plen = 8 ∧ (pinsOf (.encoded p)).status = 0#3) ∧
  (∀ l : List Byte, l.length ≤ 814 →
    (pinsOf (.formatted l)).line = l ∧ (pinsOf (.formatted l)).llen.toNat = l.length ∧
    (pinsOf (.formatted l)).status = 0#3) ∧
  ∀ x : LineFields, x.payload.length ≤ 255 →
    PinsHold (pinsOf (.parsed x)).ts x.ts ∧ (pinsOf (.parsed x)).pgn = x.pgn ∧ (pinsOf (.parsed x)).src = x.src ∧
    (pinsOf (.parsed x)).dst = x.dst ∧ (pinsOf (.parsed x)).payload = x.payload ∧
    (pinsOf (.parsed x)).plen.toNat = x.payload.length ∧ (pinsOf (.parsed x)).status = 0#3

/-! ### DECODE and ENCODE -/

/-- R63, whole: the length test first, then byte 2, then the two little-endian dimmer fields, then the eight
switch bits; bytes 0 and 1 play no part. The instance check and the order are the spec's decisions D6 and D7. -/
def Obligations.DecodeReadsTheFrame : Prop :=
  ∀ s : State, Populated s →
    (∀ p : List Byte, p.length ≠ 8 → Answers (.decode p) s (.fault .malformedFrame)) ∧
    ∀ b0 b1 b2 b3 b4 b5 b6 b7 : Byte,
      Answers (.decode [b0, b1, b2, b3, b4, b5, b6, b7]) s
        (if 49 < b2.toNat then .fault .outOfRangeInstance
         else if 1000 < b3.toNat + 256 * b4.toNat ∨ 1000 < b5.toNat + 256 * b6.toNat then .fault .outOfRangeDimmer
         else .decoded
           { inst := b2.toNat, level0 := (b3.toNat + 256 * b4.toNat : Nat),
             level1 := (b5.toNat + 256 * b6.toNat : Nat),
             sw := ⟨b7.getLsbD 0, b7.getLsbD 1, b7.getLsbD 2, b7.getLsbD 3, b7.getLsbD 4, b7.getLsbD 5, b7.getLsbD 6,
               b7.getLsbD 7⟩ })

/-- R64, whole: the range checks on integers, then the eight bytes. The order of the checks is the spec's
decision D7, the integer levels its decision D5. -/
def Obligations.EncodeWritesTheFrame : Prop :=
  ∀ (s : State) (v l0 l1 : Int) (sw : Switches), Populated s →
    (v < 0 ∨ 49 < v → Answers (.encode v l0 l1 sw) s (.fault .outOfRangeInstance)) ∧
    (0 ≤ v → v ≤ 49 → l0 < 0 ∨ 1000 < l0 ∨ l1 < 0 ∨ 1000 < l1 →
      Answers (.encode v l0 l1 sw) s (.fault .outOfRangeDimmer)) ∧
    (0 ≤ v → v ≤ 49 → 0 ≤ l0 → l0 ≤ 1000 → 0 ≤ l1 → l1 ≤ 1000 →
      ∃ (b7 : Byte) (p : List Byte), (∀ i : Fin 8, b7.getLsbD i.val = swGet sw i) ∧
        p = [0x30, 0x99, BitVec.ofInt 8 v, BitVec.ofInt 8 (l0 % 256), BitVec.ofInt 8 (l0 / 256),
            BitVec.ofInt 8 (l1 % 256), BitVec.ofInt 8 (l1 / 256), b7] ∧
        Answers (.encode v l0 l1 sw) s (.encoded p) ∧ (pinsOf (.encoded p)).plen = 8 ∧ statusOf (.encoded p) = 0#3)

/-- R65, which the spec marks as derived: DECODE after ENCODE is the identity on well-formed states. -/
def Obligations.DecodeAfterEncode : Prop :=
  ∀ (s s' : State) (m : ModuleState), Populated s → Populated s' → StateWellFormed m →
    ∃ p : List Byte, Answers (encodeOf m) s (.encoded p) ∧ Answers (.decode p) s' (.decoded m)

/-- R66, which the spec marks as derived: whatever DECODE accepts, ENCODE of the result gives the payload back
with the tags made canonical; a well-formed frame comes back unchanged. -/
def Obligations.EncodeAfterDecode : Prop :=
  ∀ (s s' : State) (p : List Byte), Populated s → Populated s' →
    (∀ m : ModuleState, Answers (.decode p) s (.decoded m) →
      Answers (encodeOf m) s' (.encoded (0x30 :: 0x99 :: p.drop 2))) ∧
    (FrameWellFormed p → ∃ m : ModuleState,
      Answers (.decode p) s (.decoded m) ∧ Answers (encodeOf m) s' (.encoded p))

/-- R67, which the spec marks as derived: ENCODE is a bijection from the well-formed states onto the well-formed
frames, and DECODE succeeds on exactly the 8-byte payloads whose instance and dimmers are in range. -/
def Obligations.EncodeIsABijectionOntoFrames : Prop :=
  ∀ s : State, Populated s →
    (∀ p : List Byte,
      FrameWellFormed p ↔ ∃ m : ModuleState, StateWellFormed m ∧ Answers (encodeOf m) s (.encoded p)) ∧
    (∀ (m m' : ModuleState) (p : List Byte),
      Answers (encodeOf m) s (.encoded p) → Answers (encodeOf m') s (.encoded p) → m = m') ∧
    ∀ p : List Byte, (∃ m : ModuleState, Answers (.decode p) s (.decoded m)) ↔
      ∃ b0 b1 b2 b3 b4 b5 b6 b7 : Byte, p = [b0, b1, b2, b3, b4, b5, b6, b7] ∧ b2.toNat ≤ 49 ∧
        b3.toNat + 256 * b4.toNat ≤ 1000 ∧ b5.toNat + 256 * b6.toNat ≤ 1000

/-- R46, R67: there are 12 825 612 800 well-formed frames. -/
def Obligations.NumberOfWellFormedFrames : Prop :=
  Nat.card { p : List Byte // FrameWellFormed p } = 50 * 1001 * 1001 * 256 ∧
    Nat.card { m : ModuleState // StateWellFormed m } = 12825612800

/-- R71: lane `i` of the switch byte is channel `i` and no other. Setting one channel of a state that encodes
changes that bit of byte 7 and nothing else of the frame; changing one bit of byte 7 of a frame that decodes
changes that channel and nothing else of the state. The two dimmers are independent of each other and of the
switches in the same way, as long as the changed field is in range. -/
def Obligations.LanesAndDimmersAreIndependent : Prop :=
  ∀ (s : State) (m : ModuleState) (i : Fin 8), Populated s →
    (∀ (v : Bool) (p : List Byte), Answers (encodeOf m) s (.encoded p) →
      ∃ b b' : Byte, p = p.take 7 ++ [b] ∧
        Answers (encodeOf { m with sw := swSet m.sw i v }) s (.encoded (p.take 7 ++ [b'])) ∧
        ∀ j : Fin 8, b'.getLsbD j.val = if j = i then v else b.getLsbD j.val) ∧
    (∀ (q : List Byte) (b b' : Byte), q.length = 7 → (∀ j : Fin 8, j ≠ i → b'.getLsbD j.val = b.getLsbD j.val) →
      Answers (.decode (q ++ [b])) s (.decoded m) →
      Answers (.decode (q ++ [b'])) s (.decoded { m with sw := swSet m.sw i (b'.getLsbD i.val) })) ∧
    (∀ (v : Int) (p : List Byte), 0 ≤ v → v ≤ 1000 → Answers (encodeOf m) s (.encoded p) →
      ∃ lo hi : Byte, (lo.toNat + 256 * hi.toNat : Nat) = v ∧
        Answers (encodeOf { m with level0 := v }) s (.encoded (p.take 3 ++ [lo, hi] ++ p.drop 5)) ∧
        Answers (encodeOf { m with level1 := v }) s (.encoded (p.take 5 ++ [lo, hi] ++ p.drop 7))) ∧
    (∀ (lo hi : Byte) (p : List Byte), lo.toNat + 256 * hi.toNat ≤ 1000 → Answers (.decode p) s (.decoded m) →
      Answers (.decode (p.take 3 ++ [lo, hi] ++ p.drop 5)) s
        (.decoded { m with level0 := (lo.toNat + 256 * hi.toNat : Nat) }) ∧
      Answers (.decode (p.take 5 ++ [lo, hi] ++ p.drop 7)) s
        (.decoded { m with level1 := (lo.toNat + 256 * hi.toNat : Nat) }))

/-- R61, R62: channel `i` is bit `i` of the byte, bit 0 the least significant, the packed byte is the sum of the
channels' powers of two, and packing and unpacking are inverse to each other (which R62 marks as derived). -/
def Obligations.SwitchByteIsItsChannels : Prop :=
  (∀ (b : Byte) (i : Fin 8), swGet (unpack8 b.toNat) i = b.getLsbD i.val) ∧
  (∀ sw : Switches, pack8 sw = ∑ i : Fin 8, (if swGet sw i = true then 1 else 0) * 2 ^ i.val) ∧
  (∀ sw : Switches, unpack8 (pack8 sw) = sw) ∧ ∀ b : Byte, pack8 (unpack8 b.toNat) = b.toNat

/-- R59, R60: the 16-bit read is little-endian and unsigned; the 16-bit write is little-endian, reads back as the
value, and touches the two bytes at its offset only; the high byte of a level is 0 to 3. -/
def Obligations.DimmerFieldReadsBack : Prop :=
  (∀ (p : List Byte) (off : Nat) (b0 b1 : Byte) (h : off + 2 ≤ p.length), p[off]? = some b0 → p[off + 1]? = some b1 →
    rd16 p off h = b0.toNat + 256 * b1.toNat ∧ rd16 p off h ≤ 65535) ∧
  ∀ (p : List Byte) (off v : Nat), v ≤ 65535 → off + 2 ≤ p.length →
    (∃ h, rd16 (wr16 p off v) off h = v) ∧
    (wr16 p off v)[off]? = some (BitVec.ofNat 8 (v % 256)) ∧
    (wr16 p off v)[off + 1]? = some (BitVec.ofNat 8 (v / 256)) ∧
    (v ≤ 1000 → v / 256 ≤ 3) ∧
    (wr16 p off v).length = p.length ∧
    ∀ k : Nat, k ≠ off → k ≠ off + 1 → (wr16 p off v)[k]? = p[k]?

/-- R103: MalformedFrame, code 1, is raised by DECODE, exactly when the payload is not 8 bytes long, and by no other
operation. -/
def Obligations.MalformedFrameExactlyForWrongLength : Prop :=
  statusOf (.fault .malformedFrame) = 1#3 ∧ ∀ (i : Instr) (s : State), Populated s →
    (Answers i s (.fault .malformedFrame) ↔ ∃ p : List Byte, i = .decode p ∧ p.length ≠ 8)

/-- R104 with the priority of R109 (decision D7): OutOfRangeDimmer, code 2, is raised by DECODE and ENCODE, exactly when a
dimmer is out of range and nothing of higher priority applies, and by no other operation. -/
def Obligations.OutOfRangeDimmerExactly : Prop :=
  statusOf (.fault .outOfRangeDimmer) = 2#3 ∧ ∀ (i : Instr) (s : State), Populated s →
    (Answers i s (.fault .outOfRangeDimmer) ↔
      (∃ b0 b1 b2 b3 b4 b5 b6 b7 : Byte, i = .decode [b0, b1, b2, b3, b4, b5, b6, b7] ∧ b2.toNat ≤ 49 ∧
        (1000 < b3.toNat + 256 * b4.toNat ∨ 1000 < b5.toNat + 256 * b6.toNat)) ∨
      ∃ (v l0 l1 : Int) (sw : Switches), i = .encode v l0 l1 sw ∧ 0 ≤ v ∧ v ≤ 49 ∧
        (l0 < 0 ∨ 1000 < l0 ∨ l1 < 0 ∨ 1000 < l1))

/-- R105: OutOfRangeInstance, code 3, is raised by ENCODE exactly when the instance is outside 0..49, by DECODE of eight
bytes exactly when byte 2 is 50..255 (the spec's decision D6), and by no other operation. -/
def Obligations.OutOfRangeInstanceExactly : Prop :=
  statusOf (.fault .outOfRangeInstance) = 3#3 ∧ ∀ (i : Instr) (s : State), Populated s →
    (Answers i s (.fault .outOfRangeInstance) ↔
      (∃ b0 b1 b2 b3 b4 b5 b6 b7 : Byte, i = .decode [b0, b1, b2, b3, b4, b5, b6, b7] ∧ 50 ≤ b2.toNat) ∨
      ∃ (v l0 l1 : Int) (sw : Switches), i = .encode v l0 l1 sw ∧ (v < 0 ∨ 49 < v))

/-- R106: InvalidPayloadLength, code 4, is raised by FORMAT, exactly when the payload is longer than 255 bytes, and by no
other operation. -/
def Obligations.InvalidPayloadLengthExactly : Prop :=
  statusOf (.fault .invalidPayloadLength) = 4#3 ∧ ∀ (i : Instr) (s : State), Populated s →
    (Answers i s (.fault .invalidPayloadLength) ↔
      ∃ (g : BitVec 32) (p : List Byte) (a : Byte) (d : Option Byte) (ts : Timestamp),
        i = .format g p a d ts ∧ 255 < p.length)

/-- R107 (MalformedLine is the spec's decision D16): UnknownInstance, code 5, is never raised by the block;
MalformedLine, code 6, is raised by PARSE, exactly when the input is not in the grammar of R47, and by no other
operation; no fault exists beside these and those of R103 to R106. -/
def Obligations.MalformedLineExactlyOutsideTheGrammar : Prop :=
  statusOf (.fault .unknownInstance) = 5#3 ∧ statusOf (.fault .malformedLine) = 6#3 ∧
  ∀ (i : Instr) (s : State), Populated s →
    ¬ Answers i s (.fault .unknownInstance) ∧
    (∀ f : FaultName, Answers i s (.fault f) →
      f = .malformedFrame ∨ f = .outOfRangeDimmer ∨ f = .outOfRangeInstance ∨ f = .invalidPayloadLength ∨
        f = .malformedLine) ∧
    (Answers i s (.fault .malformedLine) ↔ ∃ l : List Byte, i = .parse l ∧ ∀ x : LineFields, ¬ GLine l x)

/-- R68, R69: the ratio of a level is its thousandth; the level of a ratio is a nearest integer to its
thousandfold, whichever way a tie goes (U2), and gives every level back from its exact ratio. -/
def Obligations.LevelOfRatioRoundTrips : Prop :=
  (∀ m : Int, ratioOfLevel m = (m : Rat) / 1000) ∧
  (∀ m : Int, levelOfRatio (ratioOfLevel m) = m) ∧
  ∀ q : Rat, |(levelOfRatio q : Rat) - q * 1000| ≤ 1 / 2

/-! ### FORMAT and PARSE -/

/-- R77, whole: FORMAT prints its operands in the template's order, and faults exactly above 255 bytes. -/
def Obligations.FormatPrintsItsTemplate : Prop :=
  ∀ (s : State) (g : BitVec 32) (p : List Byte) (a : Byte) (d : Option Byte) (ts : Timestamp), Populated s →
    (255 < p.length → Answers (.format g p a d ts) s (.fault .invalidPayloadLength)) ∧
    (p.length ≤ 255 → ∃ l : List Byte,
      l = renderTs ts ++ [0x2C] ++ [0x32] ++ [0x2C] ++ dec g.toNat ++ [0x2C] ++ dec a.toNat ++ [0x2C] ++
        dec (d.getD 255).toNat ++ [0x2C] ++ dec p.length ++ [0x2C] ++ joinWith 0x2C (p.map (hex2 s.hexUpper)) ∧
      Answers (.format g p a d ts) s (.formatted l) ∧
      (pinsOf (.formatted l)).llen.toNat = l.length ∧ statusOf (.formatted l) = 0#3)

/-- R74: `pad(n, w)` has `w` characters, and the character at position `j` is the digit
`(n div 10^(w-1-j)) mod 10`, with the examples of the rule. -/
def Obligations.PadSpellsDigits : Prop :=
  ∀ n w : Nat, n < 10 ^ w →
    (pad n w).length = w ∧
    (∀ j : Nat, j < w → (pad n w)[j]? = some (BitVec.ofNat 8 (0x30 + n / 10 ^ (w - 1 - j) % 10))) ∧
    pad 7 3 = [0x30, 0x30, 0x37] ∧ pad 0 2 = [0x30, 0x30]

/-- R75: `dec(n)` is `pad(n, w)` for the least `w ≥ 1` with `n < 10^w`, with the examples of the rule. -/
def Obligations.DecIsTheShortestSpelling : Prop :=
  (∀ n : Nat, ∃ w : Nat, 1 ≤ w ∧ n < 10 ^ w ∧ (∀ w' : Nat, 1 ≤ w' → n < 10 ^ w' → w ≤ w') ∧ dec n = pad n w) ∧
    dec 0 = [0x30] ∧ dec 255 = [0x32, 0x35, 0x35] ∧ dec 65280 = [0x36, 0x35, 0x32, 0x38, 0x30] ∧
    dec 4294967295 = [0x34, 0x32, 0x39, 0x34, 0x39, 0x36, 0x37, 0x32, 0x39, 0x35]

/-- R76: two hex digits, high nibble first, the letter case HEX_UPPER's, with the examples of the rule; and no step
changes HEX_UPPER. -/
def Obligations.HexTokenSpelling : Prop :=
  (∀ upper : Bool, hex2 upper 0x05 = [0x30, 0x35] ∧ hex2 upper 0x30 = [0x33, 0x30]) ∧
  hex2 false 0xF4 = [0x66, 0x34] ∧ hex2 true 0xF4 = [0x46, 0x34] ∧
  (∀ s t : State, step s = .next t → t.hexUpper = s.hexUpper) ∧
  ∀ (upper : Bool) (b : Byte), ∃ h l : Byte, hex2 upper b = [h, l] ∧
    ∀ (c : Byte) (d : Nat), (c = h ∧ d = b.toNat / 16) ∨ (c = l ∧ d = b.toNat % 16) →
      (d ≤ 9 → c.toNat = 0x30 + d) ∧
      (10 ≤ d → upper = false → c.toNat = 0x61 + (d - 10)) ∧ (10 ≤ d → upper = true → c.toNat = 0x41 + (d - 10))

/-- R49, R73: the 24 characters of the timestamp field by position; two instants are printed alike only if they
are the same. -/
def Obligations.TimestampFieldByPosition : Prop :=
  ∀ t : Timestamp,
    (renderTs t).length = 24 ∧
    ((renderTs t).drop 0).take 4 = pad t.year 4 ∧ (renderTs t)[4]? = some 0x2D ∧
    ((renderTs t).drop 5).take 2 = pad t.month 2 ∧ (renderTs t)[7]? = some 0x2D ∧
    ((renderTs t).drop 8).take 2 = pad t.day 2 ∧ (renderTs t)[10]? = some 0x54 ∧
    ((renderTs t).drop 11).take 2 = pad t.hour 2 ∧ (renderTs t)[13]? = some 0x3A ∧
    ((renderTs t).drop 14).take 2 = pad t.minute 2 ∧ (renderTs t)[16]? = some 0x3A ∧
    ((renderTs t).drop 17).take 2 = pad t.second 2 ∧ (renderTs t)[19]? = some 0x2E ∧
    ((renderTs t).drop 20).take 3 = pad t.ms 3 ∧ (renderTs t)[23]? = some 0x5A ∧
    ∀ t' : Timestamp, renderTs t = renderTs t' → t = t'

/-- R80, which the spec marks as derived: the length of a line, its bounds, its commas, and that it holds no
space and no terminator. -/
def Obligations.LineLengthAndCommas : Prop :=
  ∀ (s : State) (g : BitVec 32) (p : List Byte) (a : Byte) (d : Option Byte) (ts : Timestamp) (l : List Byte),
    Answers (.format g p a d ts) s (.formatted l) →
    l.length = 31 + (dec g.toNat).length + (dec a.toNat).length + (dec (d.getD 255).toNat).length +
      (dec p.length).length + (3 * p.length - 1) ∧
    35 ≤ l.length ∧ l.length ≤ 814 ∧ l.count 0x2C = 6 + (p.length - 1) ∧
    (0x20 : Byte) ∉ l ∧ (0x0D : Byte) ∉ l ∧ (0x0A : Byte) ∉ l ∧ (0x00 : Byte) ∉ l

/-- R47, R33: the line FORMAT answers with is a SerialLine of the grammar, spells exactly the operands, and is
written in the 22 codes of the setting of HEX_UPPER. -/
def Obligations.FormattedLineIsInTheGrammar : Prop :=
  ∀ (s : State) (g : BitVec 32) (p : List Byte) (a : Byte) (d : Option Byte) (ts : Timestamp),
    Populated s → p.length ≤ 255 →
    ∃ l : List Byte, Answers (.format g p a d ts) s (.formatted l) ∧
      GLine l { ts := ts, pgn := g, src := a, dst := d.getD 255, payload := p } ∧
      ∀ c ∈ l, lineChar s.hexUpper c = true

/-- R78, R57: on the port, a FORMAT request without a destination runs as the one with destination 255, whatever
stands on the destination pins. -/
def Obligations.DestinationDefaultsToBroadcast : Prop :=
  ∀ (s : State) (r : ReqPort) (rest : List PortWord), r.op = 2#2 → r.dstPresent = false →
    step { s with requests := .request r :: rest } =
      step { s with requests := .request { r with dstPresent := true, dst := 255 } :: rest }

/-- R48, R82, R34, R51: the comma-separated fields of the line: timestamp, `2`, PGN, source, destination, byte
count, then the two-digit token of each payload byte in payload order. -/
def Obligations.LineFieldsInOrder : Prop :=
  ∀ (s : State) (g : BitVec 32) (p : List Byte) (a : Byte) (d : Option Byte) (ts : Timestamp) (l : List Byte),
    Answers (.format g p a d ts) s (.formatted l) →
    (splitComma l).take 6 =
      [renderTs ts, [0x32], dec g.toNat, dec a.toNat, dec (d.getD 255).toNat, dec p.length] ∧
    (p ≠ [] → (splitComma l).drop 6 = p.map (hex2 s.hexUpper)) ∧ (p = [] → (splitComma l).drop 6 = [[]])

/-- R85, which the spec marks as derived: PARSE of what FORMAT printed, under either setting of HEX_UPPER, gives
the operands back. -/
def Obligations.ParseAfterFormat : Prop :=
  ∀ (s s' : State) (g : BitVec 32) (p : List Byte) (a : Byte) (d : Option Byte) (ts : Timestamp),
    Populated s → Populated s' → p.length ≤ 255 →
    ∃ l : List Byte, Answers (.format g p a d ts) s (.formatted l) ∧
      Answers (.parse l) s' (.parsed { ts := ts, pgn := g, src := a, dst := d.getD 255, payload := p })

/-- R86, which the spec marks as derived: FORMAT of what PARSE read gives the line back, its hex letters in the
case of HEX_UPPER. -/
def Obligations.FormatAfterParse : Prop :=
  ∀ (s s' : State) (l : List Byte) (x : LineFields), Populated s' → Answers (.parse l) s (.parsed x) →
    Answers (.format x.pgn x.payload x.src (some x.dst) x.ts) s' (.formatted (l.map (hexCase s'.hexUpper)))

/-- R83, R47 and decision D16: PARSE succeeds on exactly the lines of the grammar, with the fields they spell,
and answers MalformedLine to every other input. -/
def Obligations.ParseAcceptsExactlyTheGrammar : Prop :=
  ∀ (s : State) (l : List Byte), Populated s →
    (∀ x : LineFields, GLine l x ↔ Answers (.parse l) s (.parsed x)) ∧
    ((∀ x : LineFields, ¬ GLine l x) → Answers (.parse l) s (.fault .malformedLine))

/-- R83: PARSE accepts exactly the lines FORMAT can produce, and those that differ from them only in the case of
hex letters. -/
def Obligations.ParseAcceptsExactlyFormatsLines : Prop :=
  ∀ (s s' : State) (l : List Byte), Populated s → Populated s' → s'.hexUpper = false →
    ((∃ x : LineFields, Answers (.parse l) s (.parsed x)) ↔
      ∃ (g : BitVec 32) (p : List Byte) (a : Byte) (d : Option Byte) (ts : Timestamp),
        Answers (.format g p a d ts) s' (.formatted (l.map lowerHex)))

/-- R87, which the spec marks as derived: two FORMAT requests give the same line exactly when they agree on
timestamp, PGN, source, payload and effective destination. -/
def Obligations.FormatIsInjective : Prop :=
  ∀ (s : State) (g g' : BitVec 32) (p p' : List Byte) (a a' : Byte) (d d' : Option Byte) (ts ts' : Timestamp)
    (l l' : List Byte),
    Answers (.format g p a d ts) s (.formatted l) → Answers (.format g' p' a' d' ts') s (.formatted l') →
    (l = l' ↔ ts = ts' ∧ g = g' ∧ a = a' ∧ p = p' ∧ d.getD 255 = d'.getD 255)

/-- R84 (decision D16): each sub-parser accepts exactly the strings its production spells, with their value. -/
def Obligations.SubParsersAcceptTheirProductions : Prop :=
  (∀ (f : List Byte) (max v : Nat), parseDec f max = some v ↔ GDecnum f v ∧ v ≤ max) ∧
  (∀ (f : List Byte) (t : Timestamp), parseTs f = some t ↔ GTs f t) ∧
  ∀ (f : List Byte) (b : Byte), parseHex2 f = some b ↔ GHexbyte f b

/-! ### The host's contract (the Bridge), outside the block -/

/-- R89, R90, R92, R93: a message that passes the filter and decodes publishes one value for each of the ten
channels; one whose decode faults publishes nothing; one that fails the filter is ignored. -/
def Obligations.InboundPublishesTenChannelsOrNothing : Prop :=
  ∀ (stamp : Timestamp) (msg : BusMessage) (s : State), Populated s →
    (bridgeAccepts msg = false → inbound stamp msg = .ignored) ∧
    (bridgeAccepts msg = true → ∀ f : FaultName, Answers (.decode msg.raw) s (.fault f) →
      inbound stamp msg = .dropped f) ∧
    (bridgeAccepts msg = true → ∀ m : ModuleState, Answers (.decode msg.raw) s (.decoded m) →
      ∃ us : List Update, inbound stamp msg = .published us ∧ us.length = 10 ∧
        ∀ c : Channel, ({ inst := m.inst.toNat, channel := c, value := channelValue m c, stamp := stamp } : Update) ∈ us)

/-- R94, R95, R98: an outbound command is rejected without a line, or its line carries the EmpirBus PGN, the
broadcast destination and a frame that decodes to the whole merged state. What the store holds afterwards is the
model's choice (log 12). -/
def Obligations.OutboundEmitsTheWholeStateOrNothing : Prop :=
  ∀ (upper : Bool) (policy : DefaultPolicy) (src : Byte) (ts : Timestamp) (store : Store) (c : Command) (s : State),
    Populated s →
    (storeGet c.inst store = none → policy = .reject →
      outbound upper policy src ts store c = .rejected .unknownInstance) ∧
    ∀ m : ModuleState, priorState policy store c.inst = some m →
      (StateWellFormed (mergeChange m c.change) → ∃ (l p : List Byte) (store' : Store),
        outbound upper policy src ts store c = .emitted l store' ∧
        storeGet c.inst store' = some (mergeChange m c.change) ∧
        Answers (.parse l) s (.parsed { ts := ts, pgn := 65280, src := src, dst := 255, payload := p }) ∧
        Answers (.decode p) s (.decoded (mergeChange m c.change))) ∧
      (¬ StateWellFormed (mergeChange m c.change) → ∃ f : FaultName,
        outbound upper policy src ts store c = .rejected f ∧ (f = .outOfRangeInstance ∨ f = .outOfRangeDimmer))

/-- R94, R123, R99: a command changes the channel it names and leaves the other nine as the host last knew
them. -/
def Obligations.OneChannelChangeKeepsTheOtherNine : Prop :=
  ∀ (m : ModuleState) (c : Channel),
    (∀ (i : Fin 8) (on : Bool),
      channelValue (mergeChange m (.switchTo i on)) c =
        if c = .switch i then .onOff on else channelValue m c) ∧
    (∀ (k : Fin 2) (q : Rat),
      channelValue (mergeChange m (.dimmerRatio k q)) c =
        if c = .dimmer k then .ratio (ratioOfLevel (levelOfRatio q)) else channelValue m c) ∧
    ∀ (k : Fin 2) (q : Rat),
      channelValue (mergeChange m (.dimmerPercent k q)) c =
        if c = .dimmer k then .ratio (ratioOfLevel (levelOfRatio (q / 100))) else channelValue m c
end

