-- ==== Sys2Proof/Laws/State.lean ====
section
/-! SUPPORT. Laws/State.lean: the fields of a state after each update. -/

namespace Sys2Proof.Machine

variable (s : State) (r : Response) (w : PortWord) (ws : List PortWord)

@[simp] theorem respond_dataModel : (respond r s).dataModel = s.dataModel := rfl
@[simp] theorem respond_hexUpper : (respond r s).hexUpper = s.hexUpper := rfl
@[simp] theorem respond_requests : (respond r s).requests = s.requests := rfl
@[simp] theorem respond_responses : (respond r s).responses = s.responses ++ [r] := rfl
@[simp] theorem respond_idleReads : (respond r s).idleReads = s.idleReads := rfl

@[simp] theorem presentAll_dataModel : (presentAll ws s).dataModel = s.dataModel := rfl
@[simp] theorem presentAll_hexUpper : (presentAll ws s).hexUpper = s.hexUpper := rfl
@[simp] theorem presentAll_requests : (presentAll ws s).requests = s.requests ++ ws := rfl
@[simp] theorem presentAll_responses : (presentAll ws s).responses = s.responses := rfl
@[simp] theorem presentAll_idleReads : (presentAll ws s).idleReads = s.idleReads := rfl

@[simp] theorem present_dataModel : (present w s).dataModel = s.dataModel := rfl
@[simp] theorem present_hexUpper : (present w s).hexUpper = s.hexUpper := rfl
@[simp] theorem present_requests : (present w s).requests = s.requests ++ [w] := rfl
@[simp] theorem present_responses : (present w s).responses = s.responses := rfl
@[simp] theorem present_idleReads : (present w s).idleReads = s.idleReads := rfl

@[simp] theorem applyReset_dataModel : (applyReset s).dataModel = s.dataModel := rfl
@[simp] theorem applyReset_hexUpper : (applyReset s).hexUpper = s.hexUpper := rfl
@[simp] theorem applyReset_requests : (applyReset s).requests = [] := rfl
@[simp] theorem applyReset_responses : (applyReset s).responses = [] := rfl
@[simp] theorem applyReset_idleReads : (applyReset s).idleReads = s.idleReads := rfl

@[simp] theorem withFetchWord_requests (nbits v : Nat) :
    (s.withFetchWord nbits v).requests = portOfTableWord nbits v :: s.requests := rfl
@[simp] theorem withFetchWord_responses (nbits v : Nat) : (s.withFetchWord nbits v).responses = s.responses := rfl
@[simp] theorem withFetchWord_dataModel (nbits v : Nat) : (s.withFetchWord nbits v).dataModel = s.dataModel := rfl
@[simp] theorem withFetchWord_hexUpper (nbits v : Nat) : (s.withFetchWord nbits v).hexUpper = s.hexUpper := rfl
@[simp] theorem withFetchWord_idleReads (nbits v : Nat) : (s.withFetchWord nbits v).idleReads = s.idleReads := rfl

end Sys2Proof.Machine
end

