-- ==== Sys2Proof/Laws/Ops.lean ====
section
/-! SUPPORT. Laws/Ops.lean: everything a shared operation, an operation of the block and a step can do, said
once. -/

namespace Sys2Proof.Machine

/-- `deliver` answers with its response. -/
theorem deliver_eq (r : Response) (s : State) :
    deliver r s = .next { s with responses := s.responses ++ [r] } := rfl

/-- `raise` answers with the fault's name and nothing else. -/
theorem raise_eq (f : FaultName) (s : State) :
    raise f s = .next { s with responses := s.responses ++ [.fault f] } := rfl

/-- Under DATA_MODEL 2 the check passes. -/
theorem whenPopulated_of_populated {s : State} (h : Populated s) (o : Outcome) : whenPopulated s o = o :=
  if_pos h

/-- Under any other data model the check refuses. -/
theorem whenPopulated_of_not_populated {s : State} (h : ¬ Populated s) (o : Outcome) :
    whenPopulated s o = .refused .dataModelNotPopulated :=
  if_neg h

/-- The check lets a next state through only under DATA_MODEL 2. -/
theorem whenPopulated_next {s t : State} {o : Outcome} (h : whenPopulated s o = .next t) :
    Populated s ∧ o = .next t := by
  by_cases hp : Populated s
  · exact ⟨hp, by rwa [whenPopulated_of_populated hp] at h⟩
  · simp [whenPopulated_of_not_populated hp] at h

/-- The response of a transaction (R63, R64, R77, R83), as a function of the request and HEX_UPPER alone; for
the row WF2, which answers nothing, the value has no meaning. -/
def answerOf (upper : Bool) : Instr → Response
  | .decode p => match decodeFrame p with
    | .ok m => .decoded m
    | .error f => .fault f
  | .encode i l0 l1 sw => match encodeFrame ⟨i, l0, l1, sw⟩ with
    | .ok p => .encoded p
    | .error f => .fault f
  | .format g p a d t => match formatLine upper g p a d t with
    | .ok l => .formatted l
    | .error f => .fault f
  | .parse l => match parseLine l with
    | some x => .parsed x
    | none => .fault .malformedLine
  | .wf2 _ => .fault .unknownInstance

/-- Every operation, under DATA_MODEL 2, answers and changes nothing else. -/
theorem exec_answers {i : Instr} {s : State} (hi : isOperation i = true) (hs : Populated s) :
    Answers i s (answerOf s.hexUpper i) := by
  unfold Answers
  cases i with
  | decode p =>
    simp only [exec, execDecode, whenPopulated_of_populated hs, answerOf]
    cases decodeFrame p <;> rfl
  | encode i l0 l1 sw =>
    simp only [exec, execEncode, whenPopulated_of_populated hs, answerOf]
    cases encodeFrame ⟨i, l0, l1, sw⟩ <;> rfl
  | format g p a d t =>
    simp only [exec, execFormat, whenPopulated_of_populated hs, answerOf]
    cases formatLine s.hexUpper g p a d t <;> rfl
  | parse l =>
    simp only [exec, execParse, whenPopulated_of_populated hs, answerOf]
    cases parseLine l <;> rfl
  | wf2 f => cases hi

/-- A next state comes only from an operation, and only under DATA_MODEL 2. -/
theorem exec_next {i : Instr} {s t : State} (h : exec i s = .next t) :
    isOperation i = true ∧ Populated s := by
  cases i with
  | wf2 f => cases h
  | _ => exact ⟨rfl, (whenPopulated_next h).1⟩

/-- What a next state of `exec` is. -/
theorem exec_next_eq {i : Instr} {s t : State} (h : exec i s = .next t) :
    t = { s with responses := s.responses ++ [answerOf s.hexUpper i] } := by
  obtain ⟨hi, hs⟩ := exec_next h
  have h' := exec_answers hi hs
  rw [Answers, h] at h'
  exact Host.Outcome.next.inj h'

/-- A transaction answers with `r` exactly if it is an operation, the data model is populated and `r` is its
response. -/
theorem answers_iff {i : Instr} {s : State} {r : Response} :
    Answers i s r ↔ isOperation i = true ∧ Populated s ∧ r = answerOf s.hexUpper i := by
  constructor
  · intro h
    obtain ⟨hi, hs⟩ := exec_next h
    have h' := congrArg State.responses (exec_next_eq h)
    exact ⟨hi, hs, by simpa using h'⟩
  · rintro ⟨hi, hs, rfl⟩
    exact exec_answers hi hs

/-- Outside DATA_MODEL 2 every operation is refused by name. -/
theorem exec_of_not_populated {i : Instr} {s : State} (hi : isOperation i = true) (hs : ¬ Populated s) :
    exec i s = .refused .dataModelNotPopulated := by
  cases i with
  | wf2 f => cases hi
  | _ => exact whenPopulated_of_not_populated hs _

/-- A step of an idle block. -/
theorem step_idle {s : State} (hs : Populated s) (h : s.requests = []) : step s = .next s := by
  simp [step, fetch, h, whenPopulated_of_populated hs]

/-- A step with a request pending. -/
theorem step_request {s : State} (hs : Populated s) {w : PortWord} {rest : List PortWord}
    (h : s.requests = w :: rest) :
    step s = match decode w with
      | .ok i => exec i { s with requests := rest }
      | .error e => .refused (.notARequest e) := by
  refine (whenPopulated_of_populated hs _).trans ?_
  cases s
  cases h
  rfl

/-- All a step that answers a next state can have done: wait, or answer the oldest request. -/
theorem step_next {s t : State} (h : step s = .next t) :
    Populated s ∧
      ((s.requests = [] ∧ t = s) ∨
        ∃ w rest i, s.requests = w :: rest ∧ decode w = .ok i ∧ isOperation i = true ∧
          t = { s with requests := rest, responses := s.responses ++ [answerOf s.hexUpper i] }) := by
  have hs := (whenPopulated_next h).1
  refine ⟨hs, ?_⟩
  cases hr : s.requests with
  | nil =>
    rw [step_idle hs hr] at h
    exact .inl ⟨rfl, (Host.Outcome.next.inj h).symm⟩
  | cons w rest =>
    rw [step_request hs hr] at h
    cases hd : decode w with
    | error e => simp [hd] at h
    | ok i =>
      simp only [hd] at h
      exact .inr ⟨w, rest, i, rfl, hd, (exec_next h).1, exec_next_eq h⟩

/-- No step changes the static inputs or the counter of idle reads. -/
theorem step_keeps_inputs {s t : State} (h : step s = .next t) :
    t.dataModel = s.dataModel ∧ t.hexUpper = s.hexUpper ∧ t.idleReads = s.idleReads := by
  obtain ⟨-, ⟨-, rfl⟩ | ⟨w, rest, i, -, -, -, rfl⟩⟩ := step_next h <;> exact ⟨rfl, rfl, rfl⟩

end Sys2Proof.Machine
end

