-- ==== Sys2Proof/Laws/Codec.lean ====
section
/-! SUPPORT. Laws/Codec.lean: what the switch byte, the buffer accesses, DECODE and ENCODE compute, in terms of
the eight bytes of a frame. -/

namespace Sys2Proof.Machine

/-- `pack8` is a byte (R62). -/
theorem pack8_lt (sw : Switches) : pack8 sw < 256 := by
  obtain ⟨c0, c1, c2, c3, c4, c5, c6, c7⟩ := sw
  revert c0 c1 c2 c3 c4 c5 c6 c7
  decide

/-- The flags survive packing and unpacking (R62). -/
theorem unpack8_pack8 (sw : Switches) : unpack8 (pack8 sw) = sw := by
  obtain ⟨c0, c1, c2, c3, c4, c5, c6, c7⟩ := sw
  revert c0 c1 c2 c3 c4 c5 c6 c7
  decide

/-- The byte value survives unpacking and packing (R62). -/
theorem pack8_unpack8 {n : Nat} (h : n < 256) : pack8 (unpack8 n) = n := by
  revert n
  decide +kernel

/-- Bit `i` of a number, as the bit of its byte. -/
theorem bitOf_eq_testBit (n i : Nat) : bitOf n i = n.testBit i := by
  simp [bitOf, Nat.testBit_eq_decide_div_mod_eq]

/-- Channel `i` of an unpacked byte is its bit `i` (R61). -/
theorem swGet_unpack8 (b : Byte) (i : Fin 8) : swGet (unpack8 b.toNat) i = b.getLsbD i.val := by
  fin_cases i <;> simp [swGet, unpack8, bitOf_eq_testBit, BitVec.getLsbD]

/-- Two flag vectors with the same channels are the same. -/
theorem switches_ext {a b : Switches} (h : ∀ i, swGet a i = swGet b i) : a = b := by
  obtain ⟨a0, a1, a2, a3, a4, a5, a6, a7⟩ := a
  obtain ⟨b0, b1, b2, b3, b4, b5, b6, b7⟩ := b
  have h0 := h 0; have h1 := h 1; have h2 := h 2; have h3 := h 3
  have h4 := h 4; have h5 := h 5; have h6 := h 6; have h7 := h 7
  simp only [swGet] at h0 h1 h2 h3 h4 h5 h6 h7
  simp [*]

/-- Setting a channel sets that channel and no other (R71). -/
theorem swGet_swSet (sw : Switches) (i j : Fin 8) (v : Bool) :
    swGet (swSet sw i v) j = if j = i then v else swGet sw j := by
  fin_cases i <;> fin_cases j <;> rfl

/-- DECODE of eight bytes, field by field (R63). -/
theorem decodeFrame_eight (b0 b1 b2 b3 b4 b5 b6 b7 : Byte) :
    decodeFrame [b0, b1, b2, b3, b4, b5, b6, b7] =
      if 49 < b2.toNat then .error .outOfRangeInstance
      else if 1000 < b3.toNat + 256 * b4.toNat then .error .outOfRangeDimmer
      else if 1000 < b5.toNat + 256 * b6.toNat then .error .outOfRangeDimmer
      else .ok ⟨b2.toNat, (b3.toNat + 256 * b4.toNat : Nat), (b5.toNat + 256 * b6.toNat : Nat), unpack8 b7.toNat⟩ := by
  rfl

/-- DECODE of any other length (R103). -/
theorem decodeFrame_length {p : List Byte} (h : p.length ≠ 8) : decodeFrame p = .error .malformedFrame :=
  dif_neg h

/-- A list of length eight, by its elements. -/
theorem eight_bytes {p : List Byte} (h : p.length = 8) :
    ∃ b0 b1 b2 b3 b4 b5 b6 b7, p = [b0, b1, b2, b3, b4, b5, b6, b7] := by
  match p, h with
  | [b0, b1, b2, b3, b4, b5, b6, b7], _ => exact ⟨b0, b1, b2, b3, b4, b5, b6, b7, rfl⟩

/-- All that a successful DECODE says of its payload (R63). -/
theorem decodeFrame_ok {p : List Byte} {m : ModuleState} (h : decodeFrame p = .ok m) :
    ∃ b0 b1 b2 b3 b4 b5 b6 b7, p = [b0, b1, b2, b3, b4, b5, b6, b7] ∧ b2.toNat ≤ 49 ∧
      b3.toNat + 256 * b4.toNat ≤ 1000 ∧ b5.toNat + 256 * b6.toNat ≤ 1000 ∧
      m = ⟨b2.toNat, (b3.toNat + 256 * b4.toNat : Nat), (b5.toNat + 256 * b6.toNat : Nat), unpack8 b7.toNat⟩ := by
  by_cases hl : p.length = 8
  · obtain ⟨b0, b1, b2, b3, b4, b5, b6, b7, rfl⟩ := eight_bytes hl
    rw [decodeFrame_eight] at h
    split_ifs at h with h2 h3 h4
    cases h
    exact ⟨b0, b1, b2, b3, b4, b5, b6, b7, rfl, by omega, by omega, by omega, rfl⟩
  · rw [decodeFrame_length hl] at h
    cases h

/-- A decoded state is well-formed (R15). -/
theorem decodeFrame_wellFormed {p : List Byte} {m : ModuleState} (h : decodeFrame p = .ok m) :
    StateWellFormed m := by
  obtain ⟨b0, b1, b2, b3, b4, b5, b6, b7, -, h2, h3, h4, rfl⟩ := decodeFrame_ok h
  simp only [StateWellFormed]
  omega

/-- The eight bytes ENCODE writes (R64). -/
theorem writeFrame_eq (i l0 l1 : Nat) (sw : Switches) :
    writeFrame i l0 l1 sw =
      [0x30, 0x99, BitVec.ofNat 8 i, BitVec.ofNat 8 l0, BitVec.ofNat 8 (l0 / 256), BitVec.ofNat 8 l1,
        BitVec.ofNat 8 (l1 / 256), BitVec.ofNat 8 (pack8 sw)] := by
  have hm : ∀ n : Nat, BitVec.ofNat 8 (n % 256) = BitVec.ofNat 8 n := fun n => by
    apply BitVec.eq_of_toNat_eq
    simp
  simp [writeFrame, memWrite8, wr16, memWrite16, Config.tag0, Config.tag1, hm, List.replicate,
    List.set]

/-- The range tests of ENCODE, as propositions (R15). -/
theorem instInRange_iff (v : Int) : instInRange v = true ↔ 0 ≤ v ∧ v ≤ 49 := by
  exact decide_eq_true_iff

theorem levelInRange_iff (v : Int) : levelInRange v = true ↔ 0 ≤ v ∧ v ≤ 1000 := by
  exact decide_eq_true_iff

/-- ENCODE of a well-formed state (R64, R67). -/
theorem encodeFrame_ok {m : ModuleState} (h : StateWellFormed m) :
    encodeFrame m = .ok (writeFrame m.inst.toNat m.level0.toNat m.level1.toNat m.sw) := by
  obtain ⟨h1, h2, h3, h4, h5, h6⟩ := h
  simp [encodeFrame, (instInRange_iff m.inst).2 ⟨h1, h2⟩, (levelInRange_iff m.level0).2 ⟨h3, h4⟩,
    (levelInRange_iff m.level1).2 ⟨h5, h6⟩]

/-- All that a successful ENCODE says of its operands (R64). -/
theorem encodeFrame_eq_ok {m : ModuleState} {p : List Byte} (h : encodeFrame m = .ok p) :
    StateWellFormed m ∧ p = writeFrame m.inst.toNat m.level0.toNat m.level1.toNat m.sw := by
  simp only [encodeFrame, Bool.not_eq_true', ← Bool.not_eq_true, instInRange_iff, levelInRange_iff] at h
  split_ifs at h with h1 h2 h3
  cases h
  exact ⟨⟨by omega, by omega, by omega, by omega, by omega, by omega⟩, rfl⟩

/-- A written frame is a well-formed WireFrame (R67). -/
theorem writeFrame_wellFormed {m : ModuleState} (h : StateWellFormed m) :
    FrameWellFormed (writeFrame m.inst.toNat m.level0.toNat m.level1.toNat m.sw) := by
  obtain ⟨h1, h2, h3, h4, h5, h6⟩ := h
  refine ⟨_, _, _, _, _, _, writeFrame_eq _ _ _ _, ?_, ?_, ?_⟩ <;> simp only [BitVec.toNat_ofNat] <;> omega

/-- DECODE of a written frame gives the state back (R65). -/
theorem decodeFrame_writeFrame {m : ModuleState} (h : StateWellFormed m) :
    decodeFrame (writeFrame m.inst.toNat m.level0.toNat m.level1.toNat m.sw) = .ok m := by
  obtain ⟨i, l0, l1, sw⟩ := m
  obtain ⟨h1, h2, h3, h4, h5, h6⟩ := h
  simp only at *
  have hp := pack8_lt sw
  rw [writeFrame_eq, decodeFrame_eight]
  simp only [BitVec.toNat_ofNat]
  rw [if_neg (by omega), if_neg (by omega), if_neg (by omega)]
  rw [Nat.mod_eq_of_lt (show pack8 sw < 2 ^ 8 by omega), unpack8_pack8]
  simp only [Except.ok.injEq, ModuleState.mk.injEq, and_true]
  omega

end Sys2Proof.Machine
end

