-- ==== Sys2Proof/Laws/Encoding.lean ====
section
/-! SUPPORT. Laws/Encoding.lean: the timestamp pins, and the frame word as a number. -/

namespace Sys2Proof.Machine

/-- Reading the pins of a timestamp gives that timestamp. -/
theorem readTs_eq_some {p : TsPins} {t : Timestamp} : readTs p = some t ↔ PinsHold p t := by
  constructor
  · intro h
    unfold readTs mkTimestamp at h
    split_ifs at h
    obtain rfl := Option.some.inj h
    exact ⟨rfl, rfl, rfl, rfl, rfl, rfl, rfl⟩
  · rintro ⟨h1, h2, h3, h4, h5, h6, h7⟩
    unfold readTs mkTimestamp
    rw [h1, h2, h3, h4, h5, h6, h7]
    exact dif_pos t.inRange

/-- The pins a timestamp is driven onto hold it: no field is cut (R17). -/
theorem pinsHold_driveTs (t : Timestamp) : PinsHold (driveTs t) t := by
  obtain ⟨hy, -, hmo, -, hd, hh, hmi, hs, hms⟩ := t.inRange
  simp only [PinsHold, driveTs, BitVec.toNat_ofNat]
  refine ⟨?_, ?_, ?_, ?_, ?_, ?_, ?_⟩ <;> omega

/-- The frame word of R45 as a sum. -/
theorem wordOfFrame_toNat (f : WireFrame) :
    (wordOfFrame f).toNat = 0x9930 + f.inst.toNat * 2 ^ 16 + f.dimmer0.toNat * 2 ^ 24 + f.dimmer1.toNat * 2 ^ 40 +
      f.switches.toNat * 2 ^ 56 := by
  have a := f.inst.isLt
  have b := f.dimmer0.isLt
  have c := f.dimmer1.isLt
  have app : ∀ {m n : Nat} (x : BitVec m) (y : BitVec n), (x ++ y).toNat = x.toNat * 2 ^ n + y.toNat := by
    intro m n x y
    rw [BitVec.toNat_append, ← Nat.shiftLeft_add_eq_or_of_lt y.isLt, Nat.shiftLeft_eq]
  simp only [wordOfFrame, app]
  simp
  omega

/-- The match of R46 is on the low 16 bits. -/
theorem matchesWf2_iff (w : FrameWord) : matchesWf2 w = true ↔ w.toNat % 65536 = 0x9930 := by
  have hand : (w &&& 0xFFFF#64).toNat = w.toNat % 65536 := by
    rw [BitVec.toNat_and]
    exact Nat.and_two_pow_sub_one_eq_mod w.toNat 16
  unfold matchesWf2
  rw [decide_eq_true_iff, ← BitVec.toNat_inj, hand]
  rfl

/-- A word is read as a frame exactly if it is that frame's word. -/
theorem frameOfWord_eq_some {w : FrameWord} {f : WireFrame} : frameOfWord w = some f ↔ w = wordOfFrame f := by
  have hw := w.isLt
  constructor
  · intro h
    unfold frameOfWord at h
    split_ifs at h with hm
    rw [matchesWf2_iff] at hm
    obtain rfl := Option.some.inj h
    apply BitVec.eq_of_toNat_eq
    rw [wordOfFrame_toNat]
    simp only [BitVec.extractLsb'_toNat, Nat.shiftRight_eq_div_pow]
    omega
  · rintro rfl
    obtain ⟨a, b, c, d⟩ := f
    have ha := a.isLt
    have hb := b.isLt
    have hc := c.isLt
    have hd := d.isLt
    have hm : matchesWf2 (wordOfFrame ⟨a, b, c, d⟩) = true := by
      rw [matchesWf2_iff, wordOfFrame_toNat]
      simp only
      omega
    rw [frameOfWord, if_pos hm]
    simp only [Option.some.injEq, WireFrame.mk.injEq]
    refine ⟨?_, ?_, ?_, ?_⟩ <;> apply BitVec.eq_of_toNat_eq <;>
      simp only [BitVec.extractLsb'_toNat, Nat.shiftRight_eq_div_pow, wordOfFrame_toNat] <;> omega

end Sys2Proof.Machine
end

