-- ==== Sys2Proof/Laws/Lines.lean ====
section
/-! SUPPORT. Laws/Lines.lean: the renderers of a line and the sub-parsers are inverse to each other, and cutting
a line at its commas is inverse to joining its fields. -/

namespace Sys2Proof.Machine

/-! ### Digits -/

theorem digitChar_toNat {d : Nat} (h : d ≤ 9) : (digitChar d).toNat = 0x30 + d := by
  simp only [digitChar, BitVec.toNat_ofNat]
  omega

theorem digitVal_digitChar {d : Nat} (h : d ≤ 9) : digitVal (digitChar d) = some d := by
  have := digitChar_toNat h
  unfold digitVal
  rw [if_pos (by omega)]
  exact congrArg some (by omega)

theorem digitVal_eq_some {c : Byte} {d : Nat} : digitVal c = some d ↔ d ≤ 9 ∧ c = digitChar d := by
  constructor
  · intro h
    simp only [digitVal] at h
    split_ifs at h with hc
    cases h
    refine ⟨by omega, BitVec.eq_of_toNat_eq ?_⟩
    rw [digitChar_toNat (by omega)]
    omega
  · rintro ⟨h, rfl⟩
    exact digitVal_digitChar h

@[simp] theorem pad_length (n w : Nat) : (pad n w).length = w := by
  induction w with
  | zero => rfl
  | succ w ih => simp [pad, ih]

/-- Adding a multiple of `10^w` does not change the last `w` digits. -/
theorem pad_add_mul (n a w : Nat) : pad (a * 10 ^ w + n) w = pad n w := by
  induction w generalizing a with
  | zero => rfl
  | succ w ih =>
    have hd : (a * 10 ^ (w + 1) + n) / 10 ^ w % 10 = n / 10 ^ w % 10 := by
      rw [show a * 10 ^ (w + 1) + n = n + 10 ^ w * (10 * a) by ring,
        Nat.add_mul_div_left _ _ (by positivity)]
      omega
    have ht : pad (a * 10 ^ (w + 1) + n) w = pad n w := by
      rw [show a * 10 ^ (w + 1) + n = (10 * a) * 10 ^ w + n by ring]
      exact ih _
    simp only [pad, hd, ht]

/-- Every character of `pad` is a decimal digit. -/
theorem pad_digit {n w : Nat} {c : Byte} (h : c ∈ pad n w) : ∃ d, d ≤ 9 ∧ c = digitChar d := by
  induction w with
  | zero => simp [pad] at h
  | succ w ih =>
    rcases List.mem_cons.1 h with h | h
    · exact ⟨_, by omega, h⟩
    · exact ih h

/-- The digits of `pad` are those of R74, by position. -/
theorem pad_getElem? {n w j : Nat} (h : j < w) : (pad n w)[j]? = some (digitChar (n / 10 ^ (w - 1 - j) % 10)) := by
  induction w generalizing j with
  | zero => omega
  | succ w ih =>
    cases j with
    | zero => simp [pad]
    | succ j =>
      rw [pad, List.getElem?_cons_succ, ih (by omega), show w + 1 - 1 - (j + 1) = w - 1 - j by omega]

theorem digitsFrom_pad (acc n w : Nat) : digitsFrom acc (pad n w) = some (acc * 10 ^ w + n % 10 ^ w) := by
  induction w generalizing acc with
  | zero => simp [pad, digitsFrom, Nat.mod_one]
  | succ w ih =>
    simp only [pad, digitsFrom, digitVal_digitChar (show n / 10 ^ w % 10 ≤ 9 by omega), ih]
    rw [Nat.mod_pow_succ]
    exact congrArg some (by ring)

/-- A digit string is the padding of its value. -/
theorem digitsFrom_eq_some {acc v : Nat} {f : List Byte} (h : digitsFrom acc f = some v) :
    ∃ r, r < 10 ^ f.length ∧ v = acc * 10 ^ f.length + r ∧ f = pad r f.length := by
  induction f generalizing acc with
  | nil =>
    simp only [digitsFrom, Option.some.injEq] at h
    exact ⟨0, by simp, by simp [h], rfl⟩
  | cons c cs ih =>
    simp only [digitsFrom] at h
    split at h
    · rename_i d hd
      obtain ⟨hd9, rfl⟩ := digitVal_eq_some.1 hd
      obtain ⟨r, hr, hv, hp⟩ := ih h
      have hpow : 10 ^ (cs.length + 1) = 10 * 10 ^ cs.length := by ring
      refine ⟨d * 10 ^ cs.length + r, ?_, ?_, ?_⟩
      · simp only [List.length_cons, hpow]
        nlinarith
      · simp only [List.length_cons, hv]
        ring
      · simp only [List.length_cons, pad, pad_add_mul, ← hp]
        congr 2
        rw [show d * 10 ^ cs.length + r = r + 10 ^ cs.length * d by ring,
          Nat.add_mul_div_left _ _ (by positivity), Nat.div_eq_of_lt hr]
        omega
    · cases h

theorem digitsVal_pad {n w : Nat} (h : n < 10 ^ w) : digitsVal (pad n w) = some n := by
  simp [digitsVal, digitsFrom_pad, Nat.mod_eq_of_lt h]

theorem digitsVal_eq_some {f : List Byte} {v : Nat} :
    digitsVal f = some v ↔ v < 10 ^ f.length ∧ f = pad v f.length := by
  constructor
  · intro h
    obtain ⟨r, hr, hv, hp⟩ := digitsFrom_eq_some h
    obtain rfl : v = r := by simpa using hv
    exact ⟨hr, hp⟩
  · rintro ⟨h, hp⟩
    rw [hp]
    exact digitsVal_pad h

/-- Two numbers that fit `w` digits and are padded alike are equal. -/
theorem pad_inj {m n w : Nat} (hm : m < 10 ^ w) (hn : n < 10 ^ w) (h : pad m w = pad n w) : m = n := by
  have := digitsVal_pad hm
  rw [h, digitsVal_pad hn] at this
  exact (Option.some.inj this).symm

/-! ### Decimal fields -/

theorem decWidthFrom_spec {n w fuel : Nat} (hw : 1 ≤ w) (hf : n < 10 ^ (w + fuel))
    (hmin : ∀ w', 1 ≤ w' → w' < w → ¬ n < 10 ^ w') :
    1 ≤ decWidthFrom n w fuel ∧ n < 10 ^ decWidthFrom n w fuel ∧
      ∀ w', 1 ≤ w' → n < 10 ^ w' → decWidthFrom n w fuel ≤ w' := by
  induction fuel generalizing w with
  | zero =>
    refine ⟨hw, hf, fun w' h1 h2 => ?_⟩
    by_contra h3
    exact hmin w' h1 (by simpa [decWidthFrom] using h3) h2
  | succ fuel ih =>
    unfold decWidthFrom
    split_ifs with h
    · refine ⟨hw, h, fun w' h1 h2 => ?_⟩
      by_contra h3
      exact hmin w' h1 (by omega) h2
    · refine ih (by omega) (by rwa [show w + 1 + fuel = w + (fuel + 1) by omega]) (fun w' h1 h2 h3 => ?_)
      rcases Nat.lt_succ_iff_lt_or_eq.1 h2 with h2 | rfl
      · exact hmin w' h1 h2 h3
      · exact h h3

/-- `decWidth n` is the least `w ≥ 1` with `n < 10^w` (R75). -/
theorem decWidth_spec (n : Nat) :
    1 ≤ decWidth n ∧ n < 10 ^ decWidth n ∧ ∀ w, 1 ≤ w → n < 10 ^ w → decWidth n ≤ w := by
  refine decWidthFrom_spec le_rfl ?_ (fun w' h1 h2 => by omega)
  calc n < 2 ^ (Nat.log2 n + 1) := Nat.lt_log2_self
    _ ≤ 10 ^ (Nat.log2 n + 1) := Nat.pow_le_pow_left (by norm_num) _
    _ ≤ 10 ^ (1 + (Nat.log2 n + 1)) := Nat.pow_le_pow_right (by norm_num) (by omega)

@[simp] theorem dec_length (n : Nat) : (dec n).length = decWidth n := pad_length n _

theorem dec_ne_nil (n : Nat) : dec n ≠ [] := by
  intro h
  have h1 := dec_length n
  have h2 := (decWidth_spec n).1
  rw [h, List.length_nil] at h1
  omega

/-- At most `w` digits for a number below `10^w`. -/
theorem decWidth_le {n w : Nat} (hw : 1 ≤ w) (h : n < 10 ^ w) : decWidth n ≤ w := (decWidth_spec n).2.2 w hw h

/-- A spelling without a leading zero has the least width. -/
theorem decWidth_eq {n w : Nat} (hw : 1 ≤ w) (h : n < 10 ^ w) (hlead : w = 1 ∨ 10 ^ (w - 1) ≤ n) : decWidth n = w := by
  obtain ⟨h1, h2, h3⟩ := decWidth_spec n
  refine le_antisymm (h3 w hw h) ?_
  rcases hlead with rfl | hlead
  · exact h1
  · by_contra hlt
    have : 10 ^ decWidth n ≤ 10 ^ (w - 1) := Nat.pow_le_pow_right (by norm_num) (by omega)
    omega

/-- The leading digit of a spelling that is longer than one character is not zero. -/
theorem dec_lead (n : Nat) : decWidth n = 1 ∨ 10 ^ (decWidth n - 1) ≤ n := by
  obtain ⟨h1, h2, h3⟩ := decWidth_spec n
  by_cases h : decWidth n = 1
  · exact .inl h
  · right
    by_contra hlt
    have := h3 (decWidth n - 1) (by omega) (by omega)
    omega

theorem digitsVal_dec (n : Nat) : digitsVal (dec n) = some n := digitsVal_pad (decWidth_spec n).2.1

theorem dec_inj {m n : Nat} (h : dec m = dec n) : m = n := by
  have := digitsVal_dec m
  rw [h, digitsVal_dec] at this
  exact (Option.some.inj this).symm

/-- The first character of a padding is `0` exactly if its first digit is. -/
theorem pad_head {n w : Nat} : (pad n (w + 1)).head? = some chZero ↔ n / 10 ^ w % 10 = 0 := by
  simp only [pad, List.head?_cons, Option.some.injEq]
  constructor
  · intro h
    have := congrArg BitVec.toNat h
    rw [digitChar_toNat (by omega)] at this
    simp [chZero] at this
    omega
  · intro h
    rw [h]
    rfl

/-- `parse_dec` accepts exactly the shortest spelling of a number in range (R84). -/
theorem parseDec_eq_some {f : List Byte} {max v : Nat} : parseDec f max = some v ↔ f = dec v ∧ v ≤ max := by
  constructor
  · intro h
    simp only [parseDec] at h
    split_ifs at h with h1 h2
    split at h
    · rename_i u hu
      split_ifs at h with h3
      obtain rfl := Option.some.inj h
      obtain ⟨hlt, hp⟩ := digitsVal_eq_some.1 hu
      refine ⟨?_, h3⟩
      obtain ⟨k, hk⟩ : ∃ k, f.length = k + 1 :=
        ⟨f.length - 1, by have := List.length_pos_iff.2 h1; omega⟩
      rw [hk] at hp hlt
      have hw : decWidth u = k + 1 := by
        refine decWidth_eq (by omega) hlt ?_
        by_contra hcon
        push Not at hcon
        obtain ⟨hne, hsmall⟩ := hcon
        refine h2 ⟨?_, ?_⟩
        · rw [hp, pad_head, Nat.div_eq_of_lt (by simpa using hsmall)]
        · intro hf
          rw [hf] at hk
          simp at hk
          omega
      rw [dec, hw]
      exact hp
    · cases h
  · rintro ⟨rfl, hv⟩
    simp only [parseDec, dec_ne_nil, if_false, digitsVal_dec, hv, if_true]
    rw [if_neg]
    rintro ⟨hz, hne⟩
    obtain ⟨h1, h2, -⟩ := decWidth_spec v
    obtain ⟨k, hk⟩ : ∃ k, decWidth v = k + 1 := ⟨decWidth v - 1, by omega⟩
    rw [hk] at h2
    have hlead := dec_lead v
    rw [hk] at hlead
    rw [dec, hk] at hz hne
    rw [pad_head] at hz
    rcases hlead with hlead | hlead
    · obtain rfl : k = 0 := by omega
      simp only [pow_zero, Nat.div_one] at hz
      exact hne (by simp [pad, hz]; rfl)
    · have hpos : 1 ≤ v / 10 ^ k := (Nat.one_le_div_iff (by positivity)).2 (by simpa using hlead)
      have hlt : v / 10 ^ k < 10 := by
        rw [Nat.div_lt_iff_lt_mul (by positivity)]
        rw [pow_succ] at h2
        linarith
      omega

/-! ### Hex tokens -/

theorem hexVal_hexDigit (u : Bool) {d : Nat} (h : d ≤ 15) : hexVal (hexDigit u d) = some d := by
  cases u <;> interval_cases d <;> rfl

theorem parseHex2_hex2 (u : Bool) (b : Byte) : parseHex2 (hex2 u b) = some b := by
  have hb := b.isLt
  simp only [parseHex2, hex2, hexVal_hexDigit u (show b.toNat / 16 ≤ 15 by omega),
    hexVal_hexDigit u (show b.toNat % 16 ≤ 15 by omega), Option.some.injEq]
  rw [Nat.div_add_mod]
  simp

/-- The value of a hex digit determines the character up to its case. -/
theorem hexVal_eq_some {c : Byte} {v : Nat} (h : hexVal c = some v) (u : Bool) :
    v ≤ 15 ∧ hexCase u c = hexDigit u v := by
  revert h
  obtain ⟨⟨n, hn⟩⟩ := c
  revert v
  revert u n
  decide +kernel

theorem parseHex2_eq_some {f : List Byte} {b : Byte} (h : parseHex2 f = some b) (u : Bool) :
    f.map (hexCase u) = hex2 u b := by
  match f, h with
  | [x, y], h =>
    simp only [parseHex2] at h
    split at h
    · rename_i vh vl hh hl
      obtain rfl := Option.some.inj h
      obtain ⟨h1, h2⟩ := hexVal_eq_some hh u
      obtain ⟨h3, h4⟩ := hexVal_eq_some hl u
      simp only [List.map_cons, List.map_nil, h2, h4, hex2, BitVec.toNat_ofNat]
      rw [show (16 * vh + vl) % 2 ^ 8 / 16 = vh by omega, show (16 * vh + vl) % 2 ^ 8 % 16 = vl by omega]
    · cases h

theorem parseHexList_hex2 (u : Bool) (p : List Byte) : parseHexList (p.map (hex2 u)) = some p := by
  induction p with
  | nil => rfl
  | cons b bs ih => simp [parseHexList, parseHex2_hex2, ih]

theorem parseHexList_eq_some {fs : List (List Byte)} {p : List Byte} (h : parseHexList fs = some p) (u : Bool) :
    fs.map (List.map (hexCase u)) = p.map (hex2 u) := by
  induction fs generalizing p with
  | nil =>
    simp only [parseHexList, Option.some.injEq] at h
    subst h
    rfl
  | cons f fs ih =>
    simp only [parseHexList] at h
    split at h
    · rename_i b bs hb hbs
      obtain rfl := Option.some.inj h
      simp [parseHex2_eq_some hb u, ih hbs]
    · cases h

/-! ### Commas -/

theorem splitComma_ne_nil (l : List Byte) : splitComma l ≠ [] := by
  cases l with
  | nil => simp [splitComma]
  | cons c cs =>
    unfold splitComma
    split_ifs
    · simp
    · cases splitComma cs <;> simp [consFirst]

/-- A field without commas is cut off at the comma behind it. -/
theorem splitComma_append {x : List Byte} (hx : chComma ∉ x) (l : List Byte) :
    splitComma (x ++ chComma :: l) = x :: splitComma l := by
  induction x with
  | nil => simp [splitComma]
  | cons c cs ih =>
    have hc : c ≠ chComma := fun h => hx (by simp [h])
    have hcs : chComma ∉ cs := fun h => hx (by simp [h])
    simp [splitComma, hc, ih hcs, consFirst]

/-- A sequence without commas is one field. -/
theorem splitComma_of_not_mem {x : List Byte} (hx : chComma ∉ x) : splitComma x = [x] := by
  induction x with
  | nil => rfl
  | cons c cs ih =>
    have hc : c ≠ chComma := fun h => hx (by simp [h])
    have hcs : chComma ∉ cs := fun h => hx (by simp [h])
    simp [splitComma, hc, ih hcs, consFirst]

/-- Cutting a joined list gives its items back. -/
theorem splitComma_joinWith {xs : List (List Byte)} (hne : xs ≠ []) (h : ∀ x ∈ xs, chComma ∉ x) :
    splitComma (joinWith chComma xs) = xs := by
  induction xs with
  | nil => exact absurd rfl hne
  | cons x xs ih =>
    cases xs with
    | nil => exact splitComma_of_not_mem (h x (by simp))
    | cons y ys =>
      rw [joinWith, splitComma_append (h x (by simp)), ih (by simp) (fun z hz => h z (by simp [hz]))]

theorem joinWith_cons {sep : Byte} {x : List Byte} {xs : List (List Byte)} (h : xs ≠ []) :
    joinWith sep (x :: xs) = x ++ sep :: joinWith sep xs := by
  cases xs with
  | nil => exact absurd rfl h
  | cons y ys => rfl

/-- Joining the fields of a line gives the line back. -/
theorem joinWith_splitComma (l : List Byte) : joinWith chComma (splitComma l) = l := by
  induction l with
  | nil => rfl
  | cons c cs ih =>
    unfold splitComma
    split_ifs with hc
    · rw [joinWith_cons (splitComma_ne_nil cs), ih, hc]
      rfl
    · cases hs : splitComma cs with
      | nil => exact absurd hs (splitComma_ne_nil cs)
      | cons f fs =>
        rw [hs] at ih
        cases fs with
        | nil => simpa [consFirst, joinWith] using ih
        | cons g gs => simpa [consFirst, joinWith] using ih

/-- No field of a cut line holds a comma. -/
theorem splitComma_no_comma {l f : List Byte} (h : f ∈ splitComma l) : chComma ∉ f := by
  induction l generalizing f with
  | nil =>
    obtain rfl : f = [] := by simpa [splitComma] using h
    simp
  | cons c cs ih =>
    unfold splitComma at h
    split_ifs at h with hc
    · rcases List.mem_cons.1 h with rfl | h
      · simp
      · exact ih h
    · cases hs : splitComma cs with
      | nil => exact absurd hs (splitComma_ne_nil cs)
      | cons g gs =>
        rw [hs, consFirst] at h
        rcases List.mem_cons.1 h with rfl | h
        · have := ih (f := g) (by simp [hs])
          simpa [Ne.symm hc] using this
        · exact ih (by simp [hs, h])

/-- A digit is no comma. -/
theorem comma_not_mem_pad (n w : Nat) : chComma ∉ pad n w := by
  intro h
  obtain ⟨d, hd, hc⟩ := pad_digit h
  have := congrArg BitVec.toNat hc
  rw [digitChar_toNat hd] at this
  simp [chComma] at this
  omega

theorem comma_not_mem_dec (n : Nat) : chComma ∉ dec n := comma_not_mem_pad n _

theorem comma_not_mem_hex2 (u : Bool) (b : Byte) : chComma ∉ hex2 u b := by
  revert u b
  decide +kernel

/-! ### The timestamp field -/

theorem comma_not_mem_renderTs (t : Timestamp) : chComma ∉ renderTs t := by
  simp only [renderTs, List.mem_append, List.mem_cons, comma_not_mem_pad, List.not_mem_nil, or_false, false_or]
  decide

@[simp] theorem renderTs_length (t : Timestamp) : (renderTs t).length = 24 := by
  simp [renderTs]

theorem mkTimestamp_self (t : Timestamp) :
    mkTimestamp t.year t.month t.day t.hour t.minute t.second t.ms = some t :=
  dif_pos t.inRange

theorem mkTimestamp_eq_some {y mo d h mi s ms : Nat} {t : Timestamp} (e : mkTimestamp y mo d h mi s ms = some t) :
    t.year = y ∧ t.month = mo ∧ t.day = d ∧ t.hour = h ∧ t.minute = mi ∧ t.second = s ∧ t.ms = ms := by
  unfold mkTimestamp at e
  split_ifs at e with hr
  obtain rfl := Option.some.inj e
  exact ⟨rfl, rfl, rfl, rfl, rfl, rfl, rfl⟩

theorem pad_two (n : Nat) : pad n 2 = [digitChar (n / 10 % 10), digitChar (n % 10)] := by
  simp [pad]

theorem pad_three (n : Nat) : pad n 3 = [digitChar (n / 100 % 10), digitChar (n / 10 % 10), digitChar (n % 10)] := by
  simp [pad]

theorem pad_four (n : Nat) :
    pad n 4 = [digitChar (n / 1000 % 10), digitChar (n / 100 % 10), digitChar (n / 10 % 10), digitChar (n % 10)] := by
  simp [pad]

/-- `parse_ts` reads what `render_ts` prints (R73, R84). -/
theorem parseTs_renderTs (t : Timestamp) : parseTs (renderTs t) = some t := by
  obtain ⟨hy, -, hmo, -, hd, hh, hmi, hs, hms⟩ := t.inRange
  have hm : tsMarks (renderTs t) = true := by
    simp [tsMarks, renderTs, pad_two, pad_three, pad_four]
  have e0 : slice (renderTs t) 0 4 = pad t.year 4 := by simp [slice, renderTs, pad_two, pad_three, pad_four]
  have e1 : slice (renderTs t) 5 2 = pad t.month 2 := by simp [slice, renderTs, pad_two, pad_three, pad_four]
  have e2 : slice (renderTs t) 8 2 = pad t.day 2 := by simp [slice, renderTs, pad_two, pad_three, pad_four]
  have e3 : slice (renderTs t) 11 2 = pad t.hour 2 := by simp [slice, renderTs, pad_two, pad_three, pad_four]
  have e4 : slice (renderTs t) 14 2 = pad t.minute 2 := by simp [slice, renderTs, pad_two, pad_three, pad_four]
  have e5 : slice (renderTs t) 17 2 = pad t.second 2 := by simp [slice, renderTs, pad_two, pad_three, pad_four]
  have e6 : slice (renderTs t) 20 3 = pad t.ms 3 := by simp [slice, renderTs, pad_two, pad_three, pad_four]
  rw [parseTs, if_pos hm, e0, e1, e2, e3, e4, e5, e6]
  rw [digitsVal_pad (by omega), digitsVal_pad (by omega), digitsVal_pad (by omega), digitsVal_pad (by omega),
    digitsVal_pad (by omega), digitsVal_pad (by omega), digitsVal_pad (by omega)]
  exact mkTimestamp_self t

/-- A list of length 24, by its elements. -/
theorem twentyfour {f : List Byte} (h : f.length = 24) :
    ∃ c0 c1 c2 c3 c4 c5 c6 c7 c8 c9 c10 c11 c12 c13 c14 c15 c16 c17 c18 c19 c20 c21 c22 c23 : Byte,
      f = [c0, c1, c2, c3, c4, c5, c6, c7, c8, c9, c10, c11, c12, c13, c14, c15, c16, c17, c18, c19, c20, c21, c22,
        c23] := by
  match f, h with
  | [c0, c1, c2, c3, c4, c5, c6, c7, c8, c9, c10, c11, c12, c13, c14, c15, c16, c17, c18, c19, c20, c21, c22, c23], _ =>
    exact ⟨_, _, _, _, _, _, _, _, _, _, _, _, _, _, _, _, _, _, _, _, _, _, _, _, rfl⟩

/-- `parse_ts` accepts only what `render_ts` prints (R73, R84). -/
theorem parseTs_eq_some {f : List Byte} {t : Timestamp} : parseTs f = some t ↔ f = renderTs t := by
  constructor
  · intro h
    unfold parseTs at h
    split_ifs at h with hm
    obtain ⟨hlen, h4, h7, h10, h13, h16, h19, h23⟩ := of_decide_eq_true hm
    obtain ⟨c0, c1, c2, c3, c4, c5, c6, c7, c8, c9, c10, c11, c12, c13, c14, c15, c16, c17, c18, c19, c20, c21, c22, c23,
      rfl⟩ := twentyfour hlen
    split at h
    · rename_i y mo d hh mi s ms e0 e1 e2 e3 e4 e5 e6
      obtain ⟨ry, rmo, rd, rh, rmi, rs, rms⟩ := mkTimestamp_eq_some h
      have p0 := (digitsVal_eq_some.1 e0).2
      have p1 := (digitsVal_eq_some.1 e1).2
      have p2 := (digitsVal_eq_some.1 e2).2
      have p3 := (digitsVal_eq_some.1 e3).2
      have p4 := (digitsVal_eq_some.1 e4).2
      have p5 := (digitsVal_eq_some.1 e5).2
      have p6 := (digitsVal_eq_some.1 e6).2
      simp only [slice, List.drop, List.take, List.length_cons, List.length_nil] at p0 p1 p2 p3 p4 p5 p6
      norm_num only at p0 p1 p2 p3 p4 p5 p6
      simp only [List.getElem?_cons_succ, List.getElem?_cons_zero, Option.some.injEq] at h4 h7 h10 h13 h16 h19 h23
      rw [renderTs, ry, rmo, rd, rh, rmi, rs, rms, ← p0, ← p1, ← p2, ← p3, ← p4, ← p5, ← p6, h4, h7, h10, h13, h16, h19,
        h23]
      rfl
    · cases h
  · rintro rfl
    exact parseTs_renderTs t

theorem renderTs_inj {t t' : Timestamp} (h : renderTs t = renderTs t') : t = t' := by
  have := parseTs_renderTs t
  rw [h, parseTs_renderTs] at this
  exact (Option.some.inj this).symm

end Sys2Proof.Machine
end

