-- ==== Sys2Proof/Laws/Grammar.lean ====
section
/-! SUPPORT. Laws/Grammar.lean: the smallest productions of the grammar, in the terms of the digit readers. -/

namespace Sys2Proof.Machine

theorem gdigit_iff {c : Byte} {v : Nat} : GDigit c v ↔ digitVal c = some v := by
  rw [digitVal_eq_some, GDigit]
  constructor
  · rintro ⟨h, e⟩
    exact ⟨h, BitVec.eq_of_toNat_eq (by rw [digitChar_toNat h, e])⟩
  · rintro ⟨h, rfl⟩
    exact ⟨h, digitChar_toNat h⟩

theorem digitsFrom_snoc (acc : Nat) (f : List Byte) (c : Byte) :
    digitsFrom acc (f ++ [c]) =
      (digitsFrom acc f).bind (fun v => (digitVal c).map (fun d => 10 * v + d)) := by
  induction f generalizing acc with
  | nil => simp [digitsFrom]; cases digitVal c <;> rfl
  | cons x xs ih => simp only [List.cons_append, digitsFrom]; cases digitVal x <;> simp [ih]

theorem gdigits_iff {f : List Byte} {v : Nat} : GDigits f v ↔ digitsVal f = some v := by
  constructor
  · intro h
    induction h with
    | nil => rfl
    | snoc f c v d _ hd ih =>
      rw [digitsVal] at ih ⊢
      rw [digitsFrom_snoc, ih, gdigit_iff.1 hd]
      rfl
  · induction f using List.reverseRecOn generalizing v with
    | nil => intro h; simp [digitsVal, digitsFrom] at h; subst h; exact .nil
    | append_singleton xs x ih =>
      intro h
      rw [digitsVal, digitsFrom_snoc] at h
      cases e : digitsFrom 0 xs <;> simp [e] at h
      obtain ⟨d, hd, rfl⟩ := h
      exact .snoc _ _ _ _ (ih e) (gdigit_iff.2 hd)

theorem ghexdig_iff {c : Byte} {v : Nat} : GHexdig c v ↔ hexVal c = some v := by
  unfold GHexdig hexVal
  constructor
  · rintro (⟨h, e⟩ | ⟨h1, h2, e | e⟩)
    · rw [if_pos (by omega)]; congr 1; omega
    · rw [if_neg (by omega), if_pos (by omega)]; congr 1; omega
    · rw [if_neg (by omega), if_neg (by omega), if_pos (by omega)]; congr 1; omega
  · intro h
    split_ifs at h <;> cases h <;> omega

end Sys2Proof.Machine
end

