-- ==== Sys2Proof/Laws/PerInstr.lean ====
section
/-! SUPPORT. Laws/PerInstr.lean: the family Selector: what the encoder puts on the request port for each
constructor of Instr. -/

namespace Sys2Proof.Laws.Selector

/-- The selector an operation is presented with (R41); the row WF2 is no request record and has none. -/
def Statement (i : Instr) : Prop :=
  match i, encode i with
  | .decode _, .request r => r.op = 0#2
  | .encode _ _ _ _, .request r => r.op = 1#2
  | .format _ _ _ _ _, .request r => r.op = 2#2
  | .parse _, .request r => r.op = 3#2
  | .wf2 f, .frame w => w = wordOfFrame f
  | _, _ => False

theorem decode (payload : List Byte) : Statement (.decode payload) := rfl
theorem encode (inst level0 level1 : Int) (sw : Switches) : Statement (.encode inst level0 level1 sw) := rfl
theorem format (pgn : BitVec 32) (payload : List Byte) (src : Byte) (dst : Option Byte) (ts : Timestamp) :
    Statement (.format pgn payload src dst ts) := rfl
theorem parse (line : List Byte) : Statement (.parse line) := rfl
theorem wf2 (f : WireFrame) : Statement (.wf2 f) := rfl

end Sys2Proof.Laws.Selector
end

