-- ==== Sys2Proof/Laws/Serial.lean ====
section
/-! SUPPORT. Laws/Serial.lean: FORMAT and PARSE, said by the comma-separated fields of the line. -/

namespace Sys2Proof.Machine

/-- The hex fields of a line: one per byte, or a single empty field for the empty payload (R81). -/
def hexFields (u : Bool) (p : List Byte) : List (List Byte) := if p = [] then [[]] else p.map (hex2 u)

theorem hexFields_ne_nil (u : Bool) (p : List Byte) : hexFields u p ≠ [] := by
  unfold hexFields
  split_ifs with h
  · simp
  · simpa using h

theorem joinWith_hexFields (u : Bool) (p : List Byte) :
    joinWith chComma (hexFields u p) = joinWith chComma (p.map (hex2 u)) := by
  cases p <;> rfl

theorem comma_not_mem_hexFields {u : Bool} {p f : List Byte} (h : f ∈ hexFields u p) : chComma ∉ f := by
  unfold hexFields at h
  split_ifs at h with hp
  · obtain rfl : f = [] := by simpa using h
    simp
  · obtain ⟨b, -, rfl⟩ := List.mem_map.1 h
    exact comma_not_mem_hex2 u b

/-- The fields of a rendered line (R48). -/
def lineFields (u : Bool) (x : LineFields) : List (List Byte) :=
  renderTs x.ts :: dec 2 :: dec x.pgn.toNat :: dec x.src.toNat :: dec x.dst.toNat :: dec x.payload.length ::
    hexFields u x.payload

/-- A rendered line is its fields, joined by commas (R77). -/
theorem renderLine_eq_join (u : Bool) (x : LineFields) :
    renderLine u x.pgn x.payload x.src x.dst x.ts = joinWith chComma (lineFields u x) := by
  have h := hexFields_ne_nil u x.payload
  simp only [lineFields]
  rw [joinWith_cons (by simp), joinWith_cons (by simp), joinWith_cons (by simp), joinWith_cons (by simp),
    joinWith_cons (by simp), joinWith_cons h, joinWith_hexFields]
  simp [renderLine, Config.priority]

/-- Cutting a rendered line at its commas gives its fields (R48). -/
theorem splitComma_renderLine (u : Bool) (x : LineFields) :
    splitComma (renderLine u x.pgn x.payload x.src x.dst x.ts) = lineFields u x := by
  rw [renderLine_eq_join]
  refine splitComma_joinWith (by simp [lineFields]) (fun f hf => ?_)
  simp only [lineFields, List.mem_cons] at hf
  rcases hf with rfl | rfl | rfl | rfl | rfl | rfl | hf
  · exact comma_not_mem_renderTs _
  · exact comma_not_mem_dec _
  · exact comma_not_mem_dec _
  · exact comma_not_mem_dec _
  · exact comma_not_mem_dec _
  · exact comma_not_mem_dec _
  · exact comma_not_mem_hexFields hf

theorem parsePayload_hexFields (u : Bool) (p : List Byte) : parsePayload p.length (hexFields u p) = some p := by
  unfold parsePayload hexFields
  cases p with
  | nil => rfl
  | cons b bs => simpa using parseHexList_hex2 u (b :: bs)

/-- All that a successful `parsePayload` says (R83). -/
theorem parsePayload_eq_some {n : Nat} {toks : List (List Byte)} {p : List Byte} (h : parsePayload n toks = some p)
    (u : Bool) : p.length = n ∧ toks.map (List.map (hexCase u)) = hexFields u p := by
  unfold parsePayload at h
  split_ifs at h with h0 h1 h1
  · obtain rfl := Option.some.inj h
    subst h1
    exact ⟨h0.symm, rfl⟩
  · have hm := parseHexList_eq_some h u
    have hl : toks.length = p.length := by simpa using congrArg List.length hm
    have hne : p ≠ [] := by
      rintro rfl
      simp at hl
      simp [hl] at h1
      omega
    exact ⟨by omega, by rw [hm, hexFields, if_neg hne]⟩

/-- PARSE reads what FORMAT renders (R85). -/
theorem parseLine_renderLine (u : Bool) (x : LineFields) (h : x.payload.length ≤ 255) :
    parseLine (renderLine u x.pgn x.payload x.src x.dst x.ts) = some x := by
  unfold parseLine
  rw [splitComma_renderLine, lineFields]
  obtain ⟨tok, toks, ht⟩ := List.exists_cons_of_ne_nil (hexFields_ne_nil u x.payload)
  have hp : parsePayload x.payload.length (tok :: toks) = some x.payload := by
    rw [← ht]
    exact parsePayload_hexFields u x.payload
  have h3 : parseDec (dec x.pgn.toNat) 4294967295 = some x.pgn.toNat :=
    parseDec_eq_some.2 ⟨rfl, by have := x.pgn.isLt; omega⟩
  have h4 : parseDec (dec x.src.toNat) 255 = some x.src.toNat :=
    parseDec_eq_some.2 ⟨rfl, by have := x.src.isLt; omega⟩
  have h5 : parseDec (dec x.dst.toNat) 255 = some x.dst.toNat :=
    parseDec_eq_some.2 ⟨rfl, by have := x.dst.isLt; omega⟩
  have h6 : parseDec (dec x.payload.length) 255 = some x.payload.length := parseDec_eq_some.2 ⟨rfl, h⟩
  rw [ht]
  simp [Config.priority, parseTs_renderTs, h3, h4, h5, h6, hp]

/-- All that a successful PARSE says of its line: the fields, their spellings, and the payload the tokens
spell (R83). -/
theorem parseLine_eq_some {l : List Byte} {x : LineFields} (h : parseLine l = some x) :
    ∃ toks, splitComma l = renderTs x.ts :: dec 2 :: dec x.pgn.toNat :: dec x.src.toNat :: dec x.dst.toNat ::
        dec x.payload.length :: toks ∧
      parsePayload x.payload.length toks = some x.payload ∧ x.payload.length ≤ 255 := by
  unfold parseLine at h
  split at h
  · rename_i f1 f2 f3 f4 f5 f6 tok toks hsplit
    split_ifs at h with h2
    split at h
    · rename_i t g s d n e1 e3 e4 e5 e6
      split at h
      · rename_i p hp
        obtain rfl := Option.some.inj h
        have hlen := (parsePayload_eq_some hp false).1
        obtain ⟨r3, b3⟩ := parseDec_eq_some.1 e3
        obtain ⟨r4, b4⟩ := parseDec_eq_some.1 e4
        obtain ⟨r5, b5⟩ := parseDec_eq_some.1 e5
        obtain ⟨r6, b6⟩ := parseDec_eq_some.1 e6
        refine ⟨tok :: toks, ?_, by simpa [hlen] using hp, by simpa [hlen] using b6⟩
        rw [hsplit, parseTs_eq_some.1 e1, h2, r3, r4, r5, r6]
        simp only [BitVec.toNat_ofNat, Config.priority, hlen]
        rw [Nat.mod_eq_of_lt (show g < 2 ^ 32 by omega), Nat.mod_eq_of_lt (show s < 2 ^ 8 by omega),
          Nat.mod_eq_of_lt (show d < 2 ^ 8 by omega)]
      · cases h
    · cases h
  · cases h

end Sys2Proof.Machine
end

