-- ==== Sys2Proof/Tests/Slice0.lean ====
section
/-! SUPPORT. Tests/Slice0.lean: ill-formed terms that WellFormed refuses, words written out from the spec's
encodings, single steps on the spec's own test vectors (95_test_vectors, named in each docstring), and for every
statement with hypotheses a state and operands that meet them (`witness_<statement>`). -/

namespace Sys2Proof.Tests

open Sys2Proof Sys2Proof.Machine

/-! ### Small values to test on -/

def sw0 : Switches := ⟨false, false, false, false, false, false, false, false⟩
def sw1 : Switches := ⟨true, true, true, true, true, true, true, true⟩
/-- `10100000`, channel 0 first (S4). -/
def swA : Switches := ⟨true, false, true, false, false, false, false, false⟩
/-- T0 of 95_test_vectors: 2016-02-28T19:57:02.364Z. -/
def ts0 : Timestamp := ⟨2016, 2, 28, 19, 57, 2, 364, by decide⟩
def tsLow : Timestamp := ⟨0, 1, 1, 0, 0, 0, 0, by decide⟩
def tsHigh : Timestamp := ⟨9999, 12, 31, 23, 59, 59, 999, by decide⟩
def pins0 : TsPins := ⟨2016, 2, 28, 19, 57, 2, 364⟩
/-- EB's frame (S6), the least and the greatest well-formed frame (DV2, DV3). -/
def frameA : List Byte := [0x30, 0x99, 0x07, 0xF4, 0x01, 0x00, 0x00, 0x05]
def frameLow : List Byte := [0x30, 0x99, 0x00, 0x00, 0x00, 0x00, 0x00, 0x00]
def frameHigh : List Byte := [0x30, 0x99, 0x31, 0xE8, 0x03, 0xE8, 0x03, 0xFF]
def stateA : ModuleState := ⟨7, 500, 0, swA⟩
def stateHigh : ModuleState := ⟨49, 1000, 1000, sw1⟩
/-- The line of FV1, as text. -/
def lineA : List Byte := ascii "2016-02-28T19:57:02.364Z,2,65280,0,255,2,30,99"
def fieldsA : LineFields := ⟨ts0, 65280, 0, 255, [0x30, 0x99]⟩
/-- The line of FV4. -/
def lineE : List Byte := ascii "2016-02-28T19:57:02.364Z,2,65280,0,255,0,"

/-- A block under DATA_MODEL 2 with these words on its request port. -/
def ready (upper : Bool) (ws : List PortWord) : State := presentAll ws (State.powerUp 2 upper)
/-- An idle one that has answered before. -/
def used : State := { ready true [] with responses := [.fault .malformedLine], idleReads := 3 }

/-- The response one step on one request leaves, if it leaves exactly one and an empty request port. -/
def oneStep (upper : Bool) (r : ReqPort) : Option Response :=
  match step (ready upper [.request r]) with
  | .next t => if t.requests = [] then (match t.responses with | [x] => some x | _ => none) else none
  | .fault _ => none
  | .refused _ => none

def reqDecode (p : List Byte) : ReqPort := { restPort with op := 0b00, payload := p, plen := BitVec.ofNat 16 p.length }
def reqEncode (i : BitVec 8) (l0 l1 : BitVec 32) (sw : Switches) : ReqPort :=
  { restPort with op := 0b01, inst := i, level0 := l0, level1 := l1, sw := sw }
def reqFormat (p : List Byte) : ReqPort :=
  { restPort with
    op := 0b10, payload := p, plen := BitVec.ofNat 16 p.length, pgn := 65280, src := 0, dstPresent := true,
    dst := 255, ts := pins0 }
def reqParse (l : List Byte) : ReqPort := { restPort with op := 0b11, line := l, llen := BitVec.ofNat 16 l.length }

/-! ### WellFormed refuses ill-formed terms -/

theorem fitsLength_long {b : List Byte} (h : 65535 < b.length) : fitsLength b = false :=
  decide_eq_false (Nat.not_le.2 h)
def zeros (n : Nat) : List Byte := List.replicate n 0
theorem zeros_length (n : Nat) : (zeros n).length = n := List.length_replicate
/-- 65536 zeros, one more than a length pin can tell. -/
def long : List Byte := zeros (256 * 256)
theorem long_length : 65535 < long.length := by
  rw [long, zeros_length]
  decide
theorem test_illFormed_decode_length : (Instr.decode long).wellFormed = false :=
  fitsLength_long long_length
theorem test_illFormed_encode_inst_above : (Instr.encode 256 0 0 sw0).wellFormed = false := by decide
theorem test_illFormed_encode_inst_below : (Instr.encode (-1) 0 0 sw0).wellFormed = false := by decide
theorem test_illFormed_encode_level0 : (Instr.encode 0 2147483648 0 sw0).wellFormed = false := by decide
theorem test_illFormed_encode_level1 : (Instr.encode 0 0 (-2147483649) sw0).wellFormed = false := by decide
theorem test_illFormed_format_length :
    (Instr.format 0 long 0 none ts0).wellFormed = false :=
  fitsLength_long long_length
theorem test_illFormed_parse_length : (Instr.parse long).wellFormed = false :=
  fitsLength_long long_length
theorem test_illFormed_frame_inst : (Instr.wf2 ⟨50, 0, 0, 0⟩).wellFormed = false := by decide
theorem test_illFormed_frame_dimmer0 : (Instr.wf2 ⟨0, 1001, 0, 0⟩).wellFormed = false := by decide
theorem test_illFormed_frame_dimmer1 : (Instr.wf2 ⟨0, 0, 1001, 0⟩).wellFormed = false := by decide

/-! ### Decoding: words written out from the encodings of the spec -/

/-- R41 row 0, R13. -/
theorem test_decode_DECODE : decode (.request { restPort with op := 0b00, payload := frameA, plen := 8 }) =
    .ok (.decode [0x30, 0x99, 0x07, 0xF4, 0x01, 0x00, 0x00, 0x05]) := by decide
/-- R41 row 1, R13: the levels are two's complement, the instance is unsigned. -/
theorem test_decode_ENCODE : decode (.request
      { restPort with op := 0b01, inst := 0b11111111, level0 := 0x80000000, level1 := 0x7FFFFFFF, sw := swA }) =
    .ok (.encode 255 (-2147483648) 2147483647 ⟨true, false, true, false, false, false, false, false⟩) := by decide
/-- R41 row 2, R13, R17. -/
theorem test_decode_FORMAT : decode (.request { restPort with
      op := 0b10, payload := [0x30, 0x99], plen := 2, pgn := 0xFF00, src := 7, dstPresent := true, dst := 13,
      ts := ⟨0b00011111100000, 0b0010, 0b11100, 0b10011, 0b111001, 0b000010, 0b0101101100⟩ }) =
    .ok (.format 65280 [0x30, 0x99] 7 (some 13) ts0) := by decide
/-- R78: `dst` is not read without `dst_present`. -/
theorem test_decode_FORMAT_broadcast : decode (.request { reqFormat [] with dstPresent := false, dst := 13 }) =
    .ok (.format 65280 [] 0 none ts0) := by decide
/-- R41 row 3, R13. -/
theorem test_decode_PARSE : decode (.request { restPort with op := 0b11, line := [0x54, 0x30], llen := 2 }) =
    .ok (.parse [0x54, 0x30]) := by decide
/-- R45: `s B A i 10011001 00110000`, instance 7, dimmers 500 and 0, channels 0 and 2 on (R29's example). -/
theorem test_decode_WF2 : decode
      (.frame 0b0000010100000000000000000000000111110100000001111001100100110000) =
    .ok (.wf2 ⟨7, 500, 0, 5⟩) := by decide
/-- R46: a word whose low 16 bits are not 0x9930 is no frame of the row. -/
theorem test_decode_foreign_tags : decode (.frame 0x05000001F4079931) = .error .frameTagMismatch := by decide
/-- U6: a length that is not the length of the bytes, and month 13. -/
theorem test_decode_plen : decode (.request { reqDecode frameA with plen := 7 }) = .error .plenMismatch := by decide
theorem test_decode_llen : decode (.request { reqParse [0x30] with llen := 2 }) = .error .llenMismatch := by decide
theorem test_decode_month13 : decode (.request { reqFormat [] with ts := { pins0 with month := 13 } }) =
    .error .timestampOutOfRange := by decide
/-- The opcode table's words, numbered as the table numbers them. -/
theorem test_tableWords : decodeTableWord 8 0 = some (.decode []) ∧
    decodeTableWord 8 1 = some (.encode 0 0 0 sw0) ∧ decodeTableWord 8 2 = some (.format 0 [] 0 none tsLow) ∧
    decodeTableWord 8 3 = some (.parse []) ∧ decodeTableWord 64 0x9930 = some (.wf2 ⟨0, 0, 0, 0⟩) := by decide

/-! ### Single steps on the test vectors of the spec -/

/-- DV1. -/
theorem test_step_DECODE : oneStep false (reqDecode frameA) = some (.decoded ⟨7, 500, 0, swA⟩) := by decide
/-- DV10: the lower offset wins. -/
theorem test_step_DECODE_priority : oneStep false (reqDecode [0x30, 0x99, 0xFF, 0xFF, 0xFF, 0x00, 0x00, 0x00]) =
    some (.fault .outOfRangeInstance) := by decide
/-- EV12: the carry into the high byte, channel 1 is 0x02. -/
theorem test_step_ENCODE : oneStep false (reqEncode 7 255 256 ⟨false, true, false, false, false, false, false, false⟩) =
    some (.encoded [0x30, 0x99, 0x07, 0xFF, 0x00, 0x00, 0x01, 0x02]) := by decide
/-- EV7: a negative level. -/
theorem test_step_ENCODE_negative : oneStep false (reqEncode 0 0 0xFFFFFFFF sw0) =
    some (.fault .outOfRangeDimmer) := by decide
/-- FV1. -/
theorem test_step_FORMAT : oneStep false (reqFormat [0x30, 0x99]) =
    some (.formatted (ascii "2016-02-28T19:57:02.364Z,2,65280,0,255,2,30,99")) := by decide
/-- FV3: HEX_UPPER, and the destination defaulted over 13 on the pins. -/
theorem test_step_FORMAT_upper : oneStep true { reqFormat frameA with dstPresent := false, dst := 13 } =
    some (.formatted (ascii "2016-02-28T19:57:02.364Z,2,65280,0,255,8,30,99,07,F4,01,00,00,05")) := by
  decide
/-- PV3: lower and upper case. -/
theorem test_step_PARSE : oneStep false
      (reqParse (ascii "2016-02-28T19:57:02.364Z,2,65280,0,255,8,30,99,07,F4,01,00,00,0a")) =
    some (.parsed ⟨ts0, 65280, 0, 255, [0x30, 0x99, 0x07, 0xF4, 0x01, 0x00, 0x00, 0x0A]⟩) := by decide
/-- PV8: a leading zero. -/
theorem test_step_PARSE_leading_zero : oneStep false
      (reqParse (ascii "2016-02-28T19:57:02.364Z,2,065280,0,255,2,30,99")) = some (.fault .malformedLine) := by
  decide
/-- The row WF2 is no operation, even on a legal frame. -/
theorem test_exec_WF2 : exec (.wf2 ⟨7, 500, 0, 5⟩) (ready false []) = .refused .notAnOperation := rfl

/-! ### Host side -/

/-- RV2, RV5, RV8. -/
theorem test_ratios : ratioOfLevel 500 = 1 / 2 ∧ levelOfRatio (1 / 2) = 500 ∧ levelOfRatio (1 / 3) = 333 := by
  decide +kernel
/-- R91, EB's example. -/
theorem test_updatePath : updatePath 7 (.dimmer 0) = ascii "electrical.empirBusNxt.7.dimmers.0.state" := by
  decide
/-- S6: what is published for EB's frame. -/
theorem test_channelValues : channelValue stateA (.switch 0) = .onOff true ∧
    channelValue stateA (.switch 1) = .onOff false ∧ channelValue stateA (.switch 2) = .onOff true := by decide

/-! ### Every hypothesis can be met

One theorem for each statement with hypotheses, on concrete values; `answers_iff` reduces "the instruction
answers" to a computation. -/

theorem ans {i : Instr} {upper : Bool} {ws : List PortWord} {r : Response} (hi : isOperation i = true)
    (h : answerOf upper i = r) : Answers i (ready upper ws) r := answers_iff.2 ⟨hi, rfl, h.symm⟩

/-- A payload, a line, an instance, a level at the ends of their ports' ranges; a legal frame at its ends. -/
theorem witness_EncodedInstructionDecodesBack :
    (Instr.decode []).wellFormed = true ∧ (Instr.decode (zeros 65535)).wellFormed = true ∧
    (Instr.encode 0 (-2147483648) 2147483647 sw1).wellFormed = true ∧ (Instr.encode 255 0 0 sw0).wellFormed = true ∧
    (Instr.format 0xFFFFFFFF (zeros 65535) 255 (some 0) tsHigh).wellFormed = true ∧
    (Instr.parse (zeros 65535)).wellFormed = true ∧ (Instr.wf2 ⟨49, 1000, 1000, 255⟩).wellFormed = true := by
  have h : fitsLength (zeros 65535) = true := decide_eq_true (zeros_length _).le
  exact ⟨rfl, h, rfl, rfl, h, h, rfl⟩
theorem witness_EverySelectorValueSelectsItsOperation :
    ((reqDecode frameA).op = 0#2 ∧ (reqDecode frameA).payload.length = (reqDecode frameA).plen.toNat) ∧
    (reqEncode 7 500 0 swA).op = 1#2 ∧
    ((reqFormat []).op = 2#2 ∧ (reqFormat []).payload.length = (reqFormat []).plen.toNat ∧
      PinsHold (reqFormat []).ts ts0) ∧
    (reqParse lineA).op = 3#2 ∧ (reqParse lineA).line.length = (reqParse lineA).llen.toNat := by decide
/-- For each operation two records that differ in a field it does not read. -/
theorem witness_UnreadRequestFieldsAreIgnored :
    (let r := reqDecode frameA; let r' := { r with line := [1], inst := 9 }
     r ≠ r' ∧ r.op = r'.op ∧ r.op = 0#2 ∧ r.payload = r'.payload ∧ r.plen = r'.plen) ∧
    (let r := reqEncode 7 500 0 swA; let r' := { r with payload := [1], ts := ⟨0, 0, 0, 0, 0, 0, 0⟩ }
     r ≠ r' ∧ r.op = r'.op ∧ r.op = 1#2 ∧ r.inst = r'.inst ∧ r.level0 = r'.level0 ∧ r.level1 = r'.level1 ∧
      r.sw = r'.sw) ∧
    (let r := { reqFormat [1] with dstPresent := false }; let r' := { r with dst := 13, llen := 1 }
     r ≠ r' ∧ r.op = r'.op ∧ r.op = 2#2 ∧ r.pgn = r'.pgn ∧ r.payload = r'.payload ∧ r.plen = r'.plen ∧ r.src = r'.src ∧
      r.dstPresent = r'.dstPresent ∧ (r.dstPresent = true → r.dst = r'.dst) ∧ r.ts = r'.ts) ∧
    (let r := reqParse [0x30]; let r' := { r with plen := 1, src := 1 }
     r ≠ r' ∧ r.op = r'.op ∧ r.op = 3#2 ∧ r.line = r'.line ∧ r.llen = r'.llen) := by decide
/-- Each clause: a wrong `plen` under either operation, a wrong `llen`, month 13. -/
theorem witness_IllTypedRequestsAreRefusedByName :
    (let r := { reqDecode frameA with plen := 9 }; let s := ready false [.request r]
     Populated s ∧ s.requests = [.request r] ∧ r.op = 0#2 ∧ r.payload.length ≠ r.plen.toNat) ∧
    (let r := { reqFormat [] with plen := 1 }; let s := ready false [.request r]
     Populated s ∧ s.requests = [.request r] ∧ r.op = 2#2 ∧ r.payload.length ≠ r.plen.toNat) ∧
    (let r := { reqParse [] with llen := 1 }; let s := ready false [.request r]
     Populated s ∧ s.requests = [.request r] ∧ r.op = 3#2 ∧ r.line.length ≠ r.llen.toNat) ∧
    (let r := { reqFormat [] with ts := { pins0 with month := 13 } }; let s := ready false [.request r]
     Populated s ∧ s.requests = [.request r] ∧ r.op = 2#2 ∧ r.payload.length = r.plen.toNat ∧
      ∀ t : Timestamp, ¬ PinsHold r.ts t) := by
  refine ⟨by decide, by decide, by decide, rfl, rfl, rfl, rfl, fun t h => ?_⟩
  have h1 : (13#4).toNat = t.month := h.2.1
  have h2 : t.month ≤ 12 := t.inRange.2.2.1
  rw [← h1] at h2
  exact absurd h2 (by decide)
theorem witness_IntegerViewOfAFrame : (frameWordOf [0x30, 0x99, 7, 0xF4, 1, 0, 0, 5] = 0x05000001F4079930) ∧
    (0x30 : Byte) = 0x30 ∧ (0x99 : Byte) = 0x99 := by decide
theorem witness_StepRunsTheDecodedInstruction :
    let s := ready false [.request (reqDecode frameA), .request (reqParse lineA)]
    Populated s ∧ s.requests = .request (reqDecode frameA) :: [.request (reqParse lineA)] ∧
      decode (.request (reqDecode frameA)) = .ok (.decode frameA) := by decide
theorem witness_IdleBlockWaits : Populated State.reset ∧ State.reset.requests = [] := ⟨rfl, rfl⟩
theorem witness_OtherDataModelsAreRefused : (State.powerUp 0 false).dataModel ≠ 2#3 ∧
    (State.powerUp 7 true).dataModel ≠ 2#3 ∧ isOperation (.parse []) = true := by decide
/-- A word that matches and one that does not. -/
theorem witness_BareFrameIsNoOperation : (let s := ready false [.frame 0x05000001F4079930]
     Populated s ∧ s.requests = [.frame 0x05000001F4079930] ∧ 0x05000001F4079930#64 &&& 0xFFFF#64 = 0x9930#64) ∧
    (let s := ready false [.frame 0x9931]
     Populated s ∧ s.requests = [.frame 0x9931] ∧ ¬ 0x9931#64 &&& 0xFFFF#64 = 0x9930#64) := by decide
theorem witness_ExecChangesOnlyTheResponsePort :
    exec (.decode frameA) used = .next { used with responses := [.fault .malformedLine, .decoded stateA] } := rfl
/-- Every result and every fault of every operation. -/
theorem witness_EachOperationAnswersItsOwnResultsAndFaults :
    Answers (.decode frameA) (ready false []) (.decoded stateA) ∧
    Answers (.decode []) (ready false []) (.fault .malformedFrame) ∧
    Answers (.decode [0, 0, 50, 0, 0, 0, 0, 0]) (ready false []) (.fault .outOfRangeInstance) ∧
    Answers (.decode [0, 0, 49, 0, 0, 0xE9, 3, 0]) (ready false []) (.fault .outOfRangeDimmer) ∧
    Answers (.encode 49 1000 1000 sw1) (ready false []) (.encoded frameHigh) ∧
    Answers (.encode 50 0 0 sw0) (ready false []) (.fault .outOfRangeInstance) ∧
    Answers (.encode 49 0 1001 sw0) (ready false []) (.fault .outOfRangeDimmer) ∧
    Answers (.format 65280 [0x30, 0x99] 0 none ts0) (ready false []) (.formatted lineA) ∧
    Answers (.format 65280 (zeros 256) 0 none ts0) (ready false []) (.fault .invalidPayloadLength) ∧
    Answers (.parse lineA) (ready false []) (.parsed fieldsA) ∧
    Answers (.parse []) (ready false []) (.fault .malformedLine) :=
  ⟨ans rfl (by decide), ans rfl (by decide), ans rfl (by decide), ans rfl (by decide), ans rfl (by decide),
    ans rfl (by decide), ans rfl (by decide), ans rfl (by decide),
    ans rfl (by simp [answerOf, formatLine, zeros_length]), ans rfl (by decide), ans rfl (by decide)⟩
theorem witness_StepAnswersTheOldestRequestOnly : step State.reset = .next State.reset ∧
    step (ready false [.request (reqDecode [])]) =
      .next { State.reset with responses := [.fault .malformedFrame] } := ⟨rfl, rfl⟩
theorem witness_EveryRequestIsAnsweredInOneStep :
    let s := ready false [.request (reqDecode [])]
    Populated s ∧ s.requests = [.request (reqDecode [])] ∧ decode (.request (reqDecode [])) = .ok (.decode []) := by
  decide
theorem witness_ProgramsAreAnsweredInOrder :
    let program : List Instr := [.decode frameA, .encode 7 500 0 swA, .format 0 frameA 0 none ts0, .parse lineA]
    (∀ i ∈ program, i.wellFormed = true ∧ isOperation i = true) ∧ Populated used ∧ used.hexUpper = true ∧
      used.requests = [] := by decide
/-- Two states that differ in all but the static inputs. -/
theorem witness_ResponseDependsOnRequestAndInputsAlone :
    let s := ready true [.request (reqDecode [])]
    s ≠ used ∧ s.dataModel = used.dataModel ∧ s.hexUpper = used.hexUpper ∧
      Answers (.decode frameA) s (.decoded stateA) := ⟨by decide, rfl, rfl, ans rfl (by decide)⟩
theorem witness_HexCaseReachesOnlyFormat :
    (∀ g p a d ts, Instr.parse lineA ≠ .format g p a d ts) ∧ Answers (.parse lineA) (ready true []) (.parsed fieldsA) :=
  ⟨by simp, ans rfl (by decide)⟩
theorem witness_FaultsAreNotSticky : Answers (.decode []) (ready false []) (.fault .malformedFrame) ∧
    exec (.decode []) (ready false []) = .next { ready false [] with responses := [.fault .malformedFrame] } :=
  ⟨ans rfl (by decide), rfl⟩
theorem witness_StepKeepsPendingResponsesSound :
    (ready false [.request (reqDecode frameHigh)]).Inv ∧
    step (ready false [.request (reqDecode frameHigh)]) = .next { State.reset with responses := [.decoded stateHigh] } :=
  ⟨by simp [State.Inv, ready, presentAll, State.powerUp], rfl⟩
theorem witness_ResetDropsWhatIsPending : Populated used ∧ used.responses ≠ [] := by decide
theorem witness_FaultedResponsePinsAreZero : pinsOf (.fault .malformedLine) = restResponse 6 := by decide
/-- The values at the ends of the pins' ranges. -/
theorem witness_PinsCarryTheResult : StateWellFormed stateHigh ∧ StateWellFormed ⟨0, 0, 0, sw0⟩ ∧
    FrameWellFormed frameHigh ∧ (zeros 814).length ≤ 814 ∧
    ({ fieldsA with payload := zeros 255 } : LineFields).payload.length ≤ 255 :=
  ⟨by decide, by decide, ⟨0x31, 0xE8, 0x03, 0xE8, 0x03, 0xFF, rfl, by decide, by decide, by decide⟩,
    (zeros_length _).le, (zeros_length _).le⟩
/-- A payload that is too short and one that is too long. -/
theorem witness_DecodeReadsTheFrame : Populated used ∧ (frameA.take 7).length ≠ 8 ∧ (frameA ++ [0]).length ≠ 8 := by
  decide
/-- Each clause at the ends of its range. -/
theorem witness_EncodeWritesTheFrame : Populated used ∧ ((-1 : Int) < 0 ∨ 49 < (-1 : Int)) ∧
    ((50 : Int) < 0 ∨ 49 < (50 : Int)) ∧
    (0 ≤ (49 : Int) ∧ (49 : Int) ≤ 49 ∧ ((-1 : Int) < 0 ∨ 1000 < (-1 : Int) ∨ (0 : Int) < 0 ∨ 1000 < (0 : Int))) ∧
    (0 ≤ (0 : Int) ∧ (0 : Int) ≤ 49 ∧ ((0 : Int) < 0 ∨ 1000 < (0 : Int) ∨ (1001 : Int) < 0 ∨ 1000 < (1001 : Int))) ∧
    0 ≤ (49 : Int) ∧ (49 : Int) ≤ 49 ∧ 0 ≤ (1000 : Int) ∧ (1000 : Int) ≤ 1000 ∧ 0 ≤ (0 : Int) ∧ (0 : Int) ≤ 1000 := by
  decide
theorem witness_DecodeAfterEncode : Populated used ∧ Populated State.reset ∧ StateWellFormed stateA ∧
    StateWellFormed stateHigh := by decide
/-- A payload that decodes with foreign tags (DV11), and a well-formed frame. -/
theorem witness_EncodeAfterDecode : Populated (ready false []) ∧ Populated used ∧
    Answers (.decode [0, 0, 7, 0xF4, 1, 0, 0, 5]) (ready false []) (.decoded stateA) ∧ FrameWellFormed frameA :=
  ⟨rfl, rfl, ans rfl (by decide), ⟨7, 0xF4, 1, 0, 0, 5, rfl, by decide, by decide, by decide⟩⟩
theorem witness_EncodeIsABijectionOntoFrames : Populated (ready false []) ∧
    Answers (encodeOf stateA) (ready false []) (.encoded frameA) := ⟨rfl, ans rfl (by decide)⟩
theorem witness_LanesAndDimmersAreIndependent : Populated (ready false []) ∧
    Answers (encodeOf stateA) (ready false []) (.encoded frameA) ∧ (frameA.take 7).length = 7 ∧
    (∀ j : Fin 8, j ≠ 7 → (0x85#8).getLsbD j.val = (0x05#8).getLsbD j.val) ∧
    Answers (.decode (frameA.take 7 ++ [0x05])) (ready false []) (.decoded stateA) ∧
    0 ≤ (1000 : Int) ∧ (1000 : Int) ≤ 1000 ∧ (0xE8#8).toNat + 256 * (0x03#8).toNat ≤ 1000 ∧
    Answers (.decode frameA) (ready false []) (.decoded stateA) :=
  ⟨rfl, ans rfl (by decide), rfl, by decide, ans rfl (by decide), by decide, by decide, by decide, ans rfl (by decide)⟩
/-- The last field of the frame, at the greatest value. -/
theorem witness_DimmerFieldReadsBack : 65535 ≤ 65535 ∧ 5 + 2 ≤ frameA.length ∧ 6 + 2 ≤ frameA.length ∧
    frameA[3]? = some 0xF4 ∧ frameA[3 + 1]? = some 0x01 ∧ 1000 ≤ 1000 ∧ 0 ≠ 5 ∧ 0 ≠ 5 + 1 := by decide
theorem witness_MalformedFrameExactlyForWrongLength : Populated (ready false []) ∧
    Answers (.decode []) (ready false []) (.fault .malformedFrame) := ⟨rfl, ans rfl (by decide)⟩
theorem witness_OutOfRangeDimmerExactly : Populated (ready false []) ∧
    Answers (.encode 0 0 (-1) sw0) (ready false []) (.fault .outOfRangeDimmer) := ⟨rfl, ans rfl (by decide)⟩
theorem witness_OutOfRangeInstanceExactly : Populated (ready false []) ∧
    Answers (.decode [0, 0, 50, 0, 0, 0, 0, 0]) (ready false []) (.fault .outOfRangeInstance) := ⟨rfl, ans rfl (by decide)⟩
theorem witness_InvalidPayloadLengthExactly : Populated (ready false []) ∧
    Answers (.format 0 (zeros 256) 0 none ts0) (ready false []) (.fault .invalidPayloadLength) := ⟨rfl, ans rfl (by simp [answerOf, formatLine, zeros_length])⟩
theorem witness_MalformedLineExactlyOutsideTheGrammar : Populated (ready false []) ∧
    Answers (.parse []) (ready false []) (.fault .malformedLine) := ⟨rfl, ans rfl (by decide)⟩
theorem witness_FormatPrintsItsTemplate : Populated used ∧ 255 < (zeros 256).length ∧
    (zeros 255).length ≤ 255 ∧ ([] : List Byte).length ≤ 255 :=
  ⟨rfl, (zeros_length 256).symm ▸ by decide, (zeros_length _).le, by decide⟩
theorem witness_PadSpellsDigits : 9999 < 10 ^ 4 ∧ 0 < 4 ∧ 3 < 4 ∧ 0 < 10 ^ 0 := by decide
theorem witness_HexTokenSpelling : hex2 false 0xF4 = [0x66, 0x34] ∧ hex2 true 0x0A = [0x30, 0x41] := by decide
theorem witness_TimestampFieldByPosition : renderTs ts0 = renderTs ts0 ∧
    renderTs ts0 = ascii "2016-02-28T19:57:02.364Z" := by decide
/-- FV1, and the empty payload of FV4. -/
theorem witness_LineLengthAndCommas :
    Answers (.format 65280 [0x30, 0x99] 0 none ts0) (ready false []) (.formatted lineA) ∧
    Answers (.format 65280 [] 0 (some 255) ts0) (ready false []) (.formatted lineE) :=
  ⟨ans rfl (by decide), ans rfl (by decide)⟩
theorem witness_FormattedLineIsInTheGrammar : Populated used ∧ (zeros 255).length ≤ 255 :=
  ⟨rfl, (zeros_length _).le⟩
theorem witness_DestinationDefaultsToBroadcast : ({ reqFormat [] with dstPresent := false } : ReqPort).op = 2#2 ∧
    ({ reqFormat [] with dstPresent := false } : ReqPort).dstPresent = false := by decide
theorem witness_LineFieldsInOrder :
    (Answers (.format 65280 [0x30, 0x99] 0 none ts0) (ready false []) (.formatted lineA) ∧ [0x30#8, 0x99#8] ≠ []) ∧
    Answers (.format 65280 [] 0 (some 255) ts0) (ready false []) (.formatted lineE) :=
  ⟨⟨ans rfl (by decide), by decide⟩, ans rfl (by decide)⟩
theorem witness_ParseAfterFormat : Populated used ∧ Populated (ready false []) ∧ (zeros 255).length ≤ 255 :=
  ⟨rfl, rfl, (zeros_length _).le⟩
/-- PV3's mixed case: hex letters of both cases in one line. -/
theorem witness_FormatAfterParse : Populated used ∧
    Answers (.parse (ascii "2016-02-28T19:57:02.364Z,2,0,0,255,2,aF,0A")) (ready false [])
      (.parsed ⟨ts0, 0, 0, 255, [0xAF, 0x0A]⟩) := ⟨rfl, ans rfl (by decide)⟩
theorem witness_ParseAcceptsExactlyTheGrammar : Populated (ready false []) ∧
    Answers (.parse lineA) (ready false []) (.parsed fieldsA) ∧ ∀ x : LineFields, ¬ GLine [] x := by
  refine ⟨rfl, ans rfl (by decide), ?_⟩
  rintro x ⟨ts, pgn, src, dst, plen, hexlist, h, -⟩
  simp at h
theorem witness_ParseAcceptsExactlyFormatsLines : Populated (ready true []) ∧ Populated (ready false []) ∧
    (ready false []).hexUpper = false ∧ Answers (.parse lineA) (ready true []) (.parsed fieldsA) :=
  ⟨rfl, rfl, rfl, ans rfl (by decide)⟩
theorem witness_FormatIsInjective :
    Answers (.format 65280 [0x30, 0x99] 0 none ts0) (ready false []) (.formatted lineA) ∧
    Answers (.format 65280 [0x30, 0x99] 0 (some 255) ts0) (ready false []) (.formatted lineA) ∧
    Answers (.format 65280 [] 0 (some 255) ts0) (ready false []) (.formatted lineE) :=
  ⟨ans rfl (by decide), ans rfl (by decide), ans rfl (by decide)⟩
/-- A message of the right manufacturer that decodes, one that faults, one with another PGN. -/
theorem witness_InboundPublishesTenChannelsOrNothing : Populated (ready false []) ∧
    bridgeAccepts ⟨65281, Config.empirbusMfrCode, frameA⟩ = false ∧
    bridgeAccepts ⟨65280, Config.empirbusMfrCode, []⟩ = true ∧
    Answers (.decode []) (ready false []) (.fault .malformedFrame) ∧
    bridgeAccepts ⟨65280, Config.empirbusMfrCode, frameA⟩ = true ∧
    Answers (.decode frameA) (ready false []) (.decoded stateA) :=
  ⟨rfl, by simp [bridgeAccepts], by simp [bridgeAccepts], ans rfl (by decide), by simp [bridgeAccepts],
    ans rfl (by decide)⟩
/-- No known state and the policy reject; a known state with a change that encodes and with one that does not. -/
theorem witness_OutboundEmitsTheWholeStateOrNothing : Populated (ready false []) ∧ storeGet 7 [] = none ∧
    priorState .reject [(7, stateA)] 7 = some stateA ∧ StateWellFormed (mergeChange stateA (.switchTo 7 true)) ∧
    priorState .defaultZero [] 50 = some (defaultState 50) ∧
    ¬ StateWellFormed (mergeChange (defaultState 50) (.switchTo 0 true)) := by decide

end Sys2Proof.Tests
end

section
/-! Proofs about the request port: how the decoder reads a request record, operation by operation, and what a step
makes of an oldest word that is, or is not, a request (R4, R9, U6). -/

namespace Sys2Proof.Machine

/-! ### What the decoder reads -/

theorem readPayload_of_mismatch {r : ReqPort} (h : r.payload.length ≠ r.plen.toNat) :
    readPayload r = .error .plenMismatch := if_neg h

theorem readPayload_of_match {r : ReqPort} (h : r.payload.length = r.plen.toNat) :
    readPayload r = .ok r.payload := if_pos h

theorem readLine_of_mismatch {r : ReqPort} (h : r.line.length ≠ r.llen.toNat) :
    readLine r = .error .llenMismatch := if_neg h

/-- The pins are rejected exactly if they hold no timestamp in range (R17). -/
theorem readTs_eq_none {p : TsPins} : readTs p = none ↔ ∀ t : Timestamp, ¬ PinsHold p t := by
  simp only [Option.eq_none_iff_forall_ne_some, ne_eq, readTs_eq_some]

/-- Selector 0 reads the payload and nothing else (R41, R44). -/
theorem decode_request_decode {r : ReqPort} (hop : r.op = 0#2) :
    decode (.request r) = (readPayload r).map .decode := by
  have hsel : opOfSelector r.op = .decode := by rw [hop]; rfl
  simp only [decode, decodeRequest, hsel]
  cases readPayload r <;> rfl

/-- Selector 2 reads the payload first and the timestamp after it (R41, R44; log 9). -/
theorem decode_request_format {r : ReqPort} (hop : r.op = 2#2) :
    decode (.request r) = (readPayload r).bind fun p =>
      (readTs r.ts).elim (.error .timestampOutOfRange) fun t => .ok (.format r.pgn p r.src (readDst r) t) := by
  have hsel : opOfSelector r.op = .format := by rw [hop]; rfl
  simp only [decode, decodeRequest, hsel]
  cases readPayload r with
  | error e => rfl
  | ok p => cases readTs r.ts <;> rfl

/-- Selector 3 reads the line and nothing else (R41, R44). -/
theorem decode_request_parse {r : ReqPort} (hop : r.op = 3#2) :
    decode (.request r) = (readLine r).map .parse := by
  have hsel : opOfSelector r.op = .parse := by rw [hop]; rfl
  simp only [decode, decodeRequest, hsel]
  cases readLine r <;> rfl

/-! ### Why a record is rejected -/

/-- Both operations that carry a payload look at its length before anything else (log 9). -/
theorem decode_request_plenMismatch {r : ReqPort} (hop : r.op = 0#2 ∨ r.op = 2#2)
    (hlen : r.payload.length ≠ r.plen.toNat) : decode (.request r) = .error .plenMismatch := by
  obtain hop | hop := hop
  · rw [decode_request_decode hop, readPayload_of_mismatch hlen]; rfl
  · rw [decode_request_format hop, readPayload_of_mismatch hlen]; rfl

theorem decode_request_llenMismatch {r : ReqPort} (hop : r.op = 3#2) (hlen : r.line.length ≠ r.llen.toNat) :
    decode (.request r) = .error .llenMismatch := by
  rw [decode_request_parse hop, readLine_of_mismatch hlen]; rfl

theorem decode_request_timestampOutOfRange {r : ReqPort} (hop : r.op = 2#2)
    (hlen : r.payload.length = r.plen.toNat) (hts : ∀ t : Timestamp, ¬ PinsHold r.ts t) :
    decode (.request r) = .error .timestampOutOfRange := by
  rw [decode_request_format hop, readPayload_of_match hlen, readTs_eq_none.mpr hts]; rfl

/-! ### The step at a pending word -/

section
variable {s : State} {w : PortWord} {rest : List PortWord} (hs : Populated s) (hreq : s.requests = w :: rest)
include hs hreq

/-- A pending request is executed with its word taken off the port (R4, R12). -/
theorem step_of_decode_ok {i : Instr} (hd : decode w = .ok i) : step s = exec i { s with requests := rest } := by
  rw [step_request hs hreq, hd]

/-- A pending word that is no request is refused with the decoder's reason (R9, U6). -/
theorem step_of_decode_error {e : DecodeError} (hd : decode w = .error e) :
    step s = .refused (.notARequest e) := by
  rw [step_request hs hreq, hd]

end

/-! ### The obligations -/

/-- Settles O4: the decoder rejects each ill-typed record by its name, and the step hands that name on. -/
theorem illTypedRequestsAreRefusedByName : Obligations.IllTypedRequestsAreRefusedByName := by
  intro s r rest hs hreq
  refine ⟨fun hop hlen => ?_, fun hop hlen => ?_, fun hop hlen hts => ?_⟩
  · exact step_of_decode_error hs hreq (decode_request_plenMismatch hop hlen)
  · exact step_of_decode_error hs hreq (decode_request_llenMismatch hop hlen)
  · exact step_of_decode_error hs hreq (decode_request_timestampOutOfRange hop hlen hts)

/-- Settles O8: the step rule for a pending word that decodes. -/
theorem stepRunsTheDecodedInstruction : Obligations.StepRunsTheDecodedInstruction :=
  fun _ _ _ _ hs hreq hd => step_of_decode_ok hs hreq hd

end Sys2Proof.Machine
end

section
/-! Proofs about the encoder of requests: it and the decoder are inverse on every instruction the ports can carry
(R13, R41, R45), and the decoder reads no field but those of its operation (R24). -/

namespace Sys2Proof.Machine

/-! ### Operands on their ports -/

/-- A length of at most 65535 survives its 16-bit port (R13, R14). -/
theorem toNat_ofNat_length {l : List Byte} (h : l.length ≤ 65535) : (BitVec.ofNat 16 l.length).toNat = l.length := by
  rw [BitVec.toNat_ofNat]
  omega

/-- A number in range survives its unsigned port (R13, R14). -/
theorem toNat_ofInt_of_lt {w : Nat} {v : Int} (h0 : 0 ≤ v) (h : v < 2 ^ w) : ((BitVec.ofInt w v).toNat : Int) = v := by
  have hpos : (0 : Int) < (2 ^ w : Nat) := by positivity
  rw [BitVec.toNat_ofInt, Int.toNat_of_nonneg (Int.emod_nonneg v hpos.ne'), Int.emod_eq_of_lt h0 (by exact_mod_cast h)]

theorem fitsLength_iff {l : List Byte} : fitsLength l = true ↔ l.length ≤ 65535 := decide_eq_true_iff

/-- A sequence that fits agrees with the length driven beside it (R13). -/
theorem length_eq_of_fitsLength {l : List Byte} (h : fitsLength l = true) :
    l.length = (BitVec.ofNat 16 l.length).toNat :=
  (toNat_ofNat_length (fitsLength_iff.mp h)).symm

theorem fitsInstance_iff {v : Int} : fitsInstance v = true ↔ 0 ≤ v ∧ v ≤ 255 := decide_eq_true_iff

theorem fitsLevel_iff {v : Int} : fitsLevel v = true ↔ -2147483648 ≤ v ∧ v ≤ 2147483647 := decide_eq_true_iff

/-- A level that fits `sint32` survives its port (R13, R70). -/
theorem toInt_ofInt_of_fitsLevel {v : Int} (h : fitsLevel v = true) : (BitVec.ofInt 32 v).toInt = v := by
  obtain ⟨hlo, hhi⟩ := fitsLevel_iff.mp h
  exact BitVec.toInt_ofInt_eq_self (by decide) (by omega) (by omega)

/-! ### What the decoder reads -/

theorem readLine_of_match {r : ReqPort} (h : r.line.length = r.llen.toNat) : readLine r = .ok r.line := if_pos h

/-- Selector 1 reads the state to encode and nothing else, and cannot fail (R41, R44). -/
theorem decode_request_encode {r : ReqPort} (hop : r.op = 1#2) :
    decode (.request r) = .ok (.encode r.inst.toNat r.level0.toInt r.level1.toInt r.sw) := by
  have hsel : opOfSelector r.op = .encode := by rw [hop]; rfl
  simp only [decode, decodeRequest, hsel]

section
variable {r r' : ReqPort}

theorem readPayload_congr (hpayload : r.payload = r'.payload) (hplen : r.plen = r'.plen) :
    readPayload r = readPayload r' := by
  simp only [readPayload, hpayload, hplen]

theorem readLine_congr (hline : r.line = r'.line) (hllen : r.llen = r'.llen) : readLine r = readLine r' := by
  simp only [readLine, hline, hllen]

/-- The destination pins count only while `dst_present` is set (R13, R78). -/
theorem readDst_congr (hpresent : r.dstPresent = r'.dstPresent) (hdst : r.dstPresent = true → r.dst = r'.dst) :
    readDst r = readDst r' := by
  unfold readDst
  rw [← hpresent]
  split
  next h => rw [hdst h]
  next => rfl

end

/-! ### Decoding what was encoded, operation by operation -/

theorem decode_encode_decode {p : List Byte} (h : fitsLength p = true) :
    decode (encode (.decode p)) = .ok (.decode p) := by
  rw [encode, decode_request_decode rfl, readPayload_of_match (length_eq_of_fitsLength h)]
  rfl

theorem decode_encode_encode {v l0 l1 : Int} {sw : Switches} (hv : fitsInstance v = true)
    (h0 : fitsLevel l0 = true) (h1 : fitsLevel l1 = true) :
    decode (encode (.encode v l0 l1 sw)) = .ok (.encode v l0 l1 sw) := by
  obtain ⟨hlo, hhi⟩ := fitsInstance_iff.mp hv
  have hinst : ((BitVec.ofInt 8 v).toNat : Int) = v := toNat_ofInt_of_lt hlo (by omega)
  rw [encode, decode_request_encode rfl]
  simp only [hinst, toInt_ofInt_of_fitsLevel h0, toInt_ofInt_of_fitsLevel h1]

theorem decode_encode_format {g : BitVec 32} {p : List Byte} {a : Byte} {d : Option Byte} {t : Timestamp}
    (h : fitsLength p = true) : decode (encode (.format g p a d t)) = .ok (.format g p a d t) := by
  have hts : readTs (driveTs t) = some t := readTs_eq_some.mpr (pinsHold_driveTs t)
  rw [encode, decode_request_format rfl, readPayload_of_match (length_eq_of_fitsLength h), hts]
  cases d <;> rfl

theorem decode_encode_parse {l : List Byte} (h : fitsLength l = true) :
    decode (encode (.parse l)) = .ok (.parse l) := by
  rw [encode, decode_request_parse rfl, readLine_of_match (length_eq_of_fitsLength h)]
  rfl

/-- Every frame survives, legal or not: the pattern of R45 has a place for each of its bits. -/
theorem decode_encode_wf2 (f : WireFrame) : decode (encode (.wf2 f)) = .ok (.wf2 f) := by
  have hword : frameOfWord (wordOfFrame f) = some f := frameOfWord_eq_some.mpr rfl
  simp only [encode, decode, hword]

/-- The decoder inverts the encoder on well-formed instructions (R13, R41, R45). -/
theorem decode_encode {i : Instr} (h : i.wellFormed = true) : decode (encode i) = .ok i := by
  cases i with
  | decode p => exact decode_encode_decode h
  | encode v l0 l1 sw =>
    simp only [Instr.wellFormed, Bool.and_eq_true] at h
    obtain ⟨⟨hv, h0⟩, h1⟩ := h
    exact decode_encode_encode hv h0 h1
  | format g p a d t => exact decode_encode_format h
  | parse l => exact decode_encode_parse h
  | wf2 f => exact decode_encode_wf2 f

/-! ### The obligations -/

/-- Settles O1: constructor by constructor, each operand survives its port. -/
theorem encodedInstructionDecodesBack : Obligations.EncodedInstructionDecodesBack :=
  fun _ h => decode_encode h

/-- Settles O3: the decoder's equation of each selector names the fields it reads. -/
theorem unreadRequestFieldsAreIgnored : Obligations.UnreadRequestFieldsAreIgnored := by
  intro r r' hop
  refine ⟨fun h hpayload hplen => ?_, fun h hinst h0 h1 hsw => ?_,
    fun h hpgn hpayload hplen hsrc hpresent hdst hts => ?_, fun h hline hllen => ?_⟩
  · rw [decode_request_decode h, decode_request_decode (hop ▸ h), readPayload_congr hpayload hplen]
  · rw [decode_request_encode h, decode_request_encode (hop ▸ h), hinst, h0, h1, hsw]
  · rw [decode_request_format h, decode_request_format (hop ▸ h), readPayload_congr hpayload hplen,
      readDst_congr hpresent hdst, hpgn, hsrc, hts]
  · rw [decode_request_parse h, decode_request_parse (hop ▸ h), readLine_congr hline hllen]

end Sys2Proof.Machine
end

section
/-! Proofs about transactions and programs: what an operation and a step leave unchanged (R10, R12), what a response
depends on (R10, R21), and the run of a whole program (R20). -/

namespace Sys2Proof.Machine

/-! ### Runs of the block -/

/-- A run begins with a step (R4). -/
theorem run_succ_of_step {M : Host.Core} {s t : M.State} (h : M.step s = .next t) (k : Nat) :
    M.run (k + 1) s = M.run k t := by
  simp only [Host.Core.run, h]

/-- One step on the oldest request, put on the port by the encoder (R4, R12). -/
theorem step_encoded {s : State} {i : Instr} {rest : List PortWord} (hs : Populated s)
    (hreq : s.requests = encode i :: rest) (hwf : i.wellFormed = true) (hop : isOperation i = true) :
    step s = .next { s with requests := rest, responses := s.responses ++ [answerOf s.hexUpper i] } := by
  rw [step_of_decode_ok hs hreq (decode_encode hwf)]
  exact exec_answers (s := { s with requests := rest }) hop hs

/-- As many steps as there are requests of a program at the front of the port answer exactly these, in order; what
stands behind them stays (R12, R20). -/
theorem run_program {program : List Instr} {s : State} {rest : List PortWord} (hs : Populated s)
    (hreq : s.requests = program.map encode ++ rest)
    (hprog : ∀ i ∈ program, i.wellFormed = true ∧ isOperation i = true) :
    Host.Core.run core program.length s =
      .next { s with requests := rest, responses := s.responses ++ program.map (answerOf s.hexUpper) } := by
  induction program generalizing s with
  | nil =>
    obtain rfl : s.requests = rest := hreq
    rw [List.map_nil, List.append_nil]
    rfl
  | cons i program ih =>
    obtain ⟨⟨hwf, hop⟩, hrest⟩ := List.forall_mem_cons.mp hprog
    have hstep := step_encoded hs hreq hwf hop
    rw [List.map_cons, List.append_cons]
    exact (run_succ_of_step (M := core) hstep program.length).trans (ih hs rfl hrest)

/-! ### What a response depends on -/

/-- FORMAT is the one operation that prints hex letters (R21). -/
theorem answerOf_hexUpper_irrelevant {i : Instr} (hi : ∀ g p a d ts, i ≠ .format g p a d ts) (upper upper' : Bool) :
    answerOf upper i = answerOf upper' i := by
  cases i with
  | format g p a d ts => exact absurd rfl (hi g p a d ts)
  | _ => rfl

/-- Under an unpopulated data model not even the idle step is taken (R21, U4; log 5). -/
theorem step_of_not_populated {s : State} (hs : ¬ Populated s) : step s = .refused .dataModelNotPopulated :=
  whenPopulated_of_not_populated hs _

/-! ### The obligations -/

/-- Settles O16: the answer is `answerOf` at the setting of HEX_UPPER, by induction on the program. -/
theorem programsAreAnsweredInOrder : Obligations.ProgramsAreAnsweredInOrder := by
  intro upper
  refine ⟨answerOf upper, ?_, ?_⟩
  · rintro i s hi hs rfl
    exact exec_answers hi hs
  · rintro program s hs rfl hidle hprog
    have hreq : (presentAll (program.map encode) s).requests = program.map encode ++ s.requests := by
      simp [hidle]
    exact run_program (s := presentAll (program.map encode) s) hs hreq hprog

/-- Settles O12: a next state of `exec` is the old one with the answer put behind its responses. -/
theorem execChangesOnlyTheResponsePort : Obligations.ExecChangesOnlyTheResponsePort := by
  intro i s t h
  obtain rfl := exec_next_eq h
  exact ⟨rfl, rfl, rfl, rfl, answerOf s.hexUpper i, rfl⟩

/-- Settles O14: the two cases of a step that answers a next state. -/
theorem stepAnswersTheOldestRequestOnly : Obligations.StepAnswersTheOldestRequestOnly := by
  intro s t h
  obtain ⟨-, hwait | ⟨w, rest, i, hreq, -, -, ht⟩⟩ := step_next h
  · exact .inl hwait
  · exact .inr ⟨w, rest, answerOf s.hexUpper i, hreq, ht⟩

/-- Settles O17: a response is `answerOf` of HEX_UPPER and the request, given under DATA_MODEL 2. -/
theorem responseDependsOnRequestAndInputsAlone : Obligations.ResponseDependsOnRequestAndInputsAlone := by
  intro i s s' r hmodel hupper h
  obtain ⟨hi, hs, hr⟩ := answers_iff.mp h
  exact answers_iff.mpr ⟨hi, hmodel.symm.trans hs, hupper ▸ hr⟩

/-- Settles O10: the check of the data model guards the step and each operation. -/
theorem otherDataModelsAreRefused : Obligations.OtherDataModelsAreRefused :=
  fun _ hs => ⟨step_of_not_populated hs, fun _ hi => exec_of_not_populated hi hs⟩

/-- Settles O18: away from FORMAT the answer is the same at both settings. -/
theorem hexCaseReachesOnlyFormat : Obligations.HexCaseReachesOnlyFormat := by
  intro i s upper r hformat h
  obtain ⟨hi, hs, hr⟩ := answers_iff.mp h
  exact answers_iff.mpr ⟨hi, hs, hr.trans (answerOf_hexUpper_irrelevant hformat s.hexUpper upper)⟩

end Sys2Proof.Machine
end

section
/-! Proofs about the response port: what the pins hold for each kind of response (R14, D20), and the port after reset
(R23, R119). -/

namespace Sys2Proof.Machine

/-- An absent switch vector has every channel off (R14, D20). -/
theorem swGet_restResponse (status : BitVec 3) (i : Fin 8) : swGet (restResponse status).sw i = false := by
  fin_cases i <;> rfl

/-- A fault leaves every result field absent (R14, R108). -/
theorem pinsOf_fault (f : FaultName) : pinsOf (.fault f) = restResponse (faultCode f) := rfl

theorem FrameWellFormed.length_eq {p : List Byte} (h : FrameWellFormed p) : p.length = 8 := by
  obtain ⟨i, l0, h0, l1, h1, sw, rfl, -, -, -⟩ := h
  rfl

/-- With no response pending there is none that could be unsound. -/
theorem inv_of_responses_nil {s : State} (h : s.responses = []) : s.Inv := by
  intro r hr
  rw [h] at hr
  exact absurd hr List.not_mem_nil

/-! ### Each result on its pins -/

/-- The pins of a decoded state (R14, R15). -/
theorem pinsOf_decoded {m : ModuleState} (h : StateWellFormed m) :
    ((pinsOf (.decoded m)).inst.toNat : Int) = m.inst ∧ ((pinsOf (.decoded m)).level0.toNat : Int) = m.level0 ∧
      ((pinsOf (.decoded m)).level1.toNat : Int) = m.level1 := by
  obtain ⟨hi, hi', h0, h0', h1, h1'⟩ := h
  exact ⟨toNat_ofInt_of_lt hi (by omega), toNat_ofInt_of_lt h0 (by omega), toNat_ofInt_of_lt h1 (by omega)⟩

/-- The length pins of an encoded frame (R14, R67). -/
theorem plen_pinsOf_encoded {p : List Byte} (h : FrameWellFormed p) : (pinsOf (.encoded p)).plen = 8 :=
  congrArg (BitVec.ofNat 16) h.length_eq

/-! ### The obligations -/

/-- Settles O25: each value is below the size of its port, so no field is cut. -/
theorem pinsCarryTheResult : Obligations.PinsCarryTheResult := by
  refine ⟨fun m hm => ?_, fun p hp => ?_, fun l hl => ?_, fun x hx => ?_⟩
  · obtain ⟨hinst, h0, h1⟩ := pinsOf_decoded hm
    exact ⟨hinst, h0, h1, rfl, rfl⟩
  · exact ⟨rfl, plen_pinsOf_encoded hp, rfl⟩
  · exact ⟨rfl, toNat_ofNat_length (by omega), rfl⟩
  · exact ⟨pinsHold_driveTs x.ts, rfl, rfl, rfl, rfl, toNat_ofNat_length (by omega), rfl⟩

/-- Settles O21: both ports are idle at reset, so the invariant asks nothing there. -/
theorem resetStateIsIdleAndSound : Obligations.ResetStateIsIdleAndSound :=
  ⟨rfl, rfl, rfl, rfl, inv_of_responses_nil rfl⟩

/-- Settles O24: a fault's pins are those of a response with no result. -/
theorem faultedResponsePinsAreZero : Obligations.FaultedResponsePinsAreZero := by
  rintro f p rfl
  rw [pinsOf_fault]
  exact ⟨rfl, rfl, rfl, rfl, swGet_restResponse (faultCode f), rfl, rfl, rfl, rfl, rfl, rfl, rfl, rfl, rfl, rfl, rfl,
    rfl, rfl, rfl⟩

end Sys2Proof.Machine
end

section
/-! Proofs about the integer view of a frame: its bytes are the digits, in base 256, of the word's value (R29). -/

namespace Sys2Proof.Machine

/-- The integer view reads the bytes as digits in base 256, the least significant first. -/
theorem frameValue_eq_ofDigits (p : List Byte) : frameValue p = Nat.ofDigits 256 (p.map BitVec.toNat) := by
  induction p with
  | nil => rfl
  | cons b bs ih => rw [frameValue, ih, List.map_cons, Nat.ofDigits_cons]

theorem toNat_lt_of_mem_map_toNat {p : List Byte} {d : Nat} (h : d ∈ p.map BitVec.toNat) : d < 256 := by
  obtain ⟨b, -, rfl⟩ := List.mem_map.mp h
  exact b.isLt

theorem frameValue_lt (p : List Byte) : frameValue p < 256 ^ p.length := by
  rw [frameValue_eq_ofDigits, ← List.length_map BitVec.toNat]
  exact Nat.ofDigits_lt_base_pow_length (by decide) fun _ => toNat_lt_of_mem_map_toNat

/-- Shifting the view right by `k` bytes drops the first `k` bytes. -/
theorem frameValue_div_pow (p : List Byte) (k : Nat) : frameValue p / 256 ^ k = frameValue (p.drop k) := by
  rw [frameValue_eq_ofDigits, frameValue_eq_ofDigits, List.map_drop]
  exact Nat.ofDigits_div_pow_eq_ofDigits_drop k (by decide) _ fun _ => toNat_lt_of_mem_map_toNat

/-- Eight bytes fit the 64-bit word. -/
theorem toNat_frameWordOf {p : List Byte} (h : p.length ≤ 8) : (frameWordOf p).toNat = frameValue p := by
  have hlt : frameValue p < 2 ^ 64 :=
    calc frameValue p < 256 ^ p.length := frameValue_lt p
      _ ≤ 256 ^ 8 := Nat.pow_le_pow_right (by decide) h
  rw [frameWordOf, BitVec.toNat_ofNat, Nat.mod_eq_of_lt hlt]

/-- A field of `n` bits that begins at byte `k` holds the low bits of the view of the bytes from `k` on. -/
theorem toNat_extractLsb'_frameWordOf {p : List Byte} (h : p.length ≤ 8) (k n : Nat) :
    ((frameWordOf p).extractLsb' (8 * k) n).toNat = frameValue (p.drop k) % 2 ^ n := by
  rw [BitVec.extractLsb'_toNat, toNat_frameWordOf h, Nat.shiftRight_eq_div_pow, Nat.pow_mul, frameValue_div_pow]

/-- An 8-bit field at byte `k` is byte `k`. -/
theorem extractLsb'_frameWordOf_byte {p : List Byte} (h : p.length ≤ 8) {k : Nat} {b : Byte} {bs : List Byte}
    (hk : p.drop k = b :: bs) : (frameWordOf p).extractLsb' (8 * k) 8 = b := by
  apply BitVec.eq_of_toNat_eq
  have hb := b.isLt
  rw [toNat_extractLsb'_frameWordOf h, hk, frameValue]
  omega

/-- A 16-bit field at byte `k` is the little-endian value of bytes `k` and `k + 1`. -/
theorem toNat_extractLsb'_frameWordOf_pair {p : List Byte} (h : p.length ≤ 8) {k : Nat} {b c : Byte} {bs : List Byte}
    (hk : p.drop k = b :: c :: bs) : ((frameWordOf p).extractLsb' (8 * k) 16).toNat = b.toNat + 256 * c.toNat := by
  have hb := b.isLt
  have hc := c.isLt
  rw [toNat_extractLsb'_frameWordOf h, hk, frameValue, frameValue]
  omega

/-- Settles O5: each field is a byte, or a pair of bytes, of the list the word was made of. -/
theorem integerViewOfAFrame : Obligations.IntegerViewOfAFrame := by
  rintro b0 b1 b2 b3 b4 b5 b6 b7 W rfl
  have hlen : [b0, b1, b2, b3, b4, b5, b6, b7].length ≤ 8 := le_rfl
  have hbyte7 := extractLsb'_frameWordOf_byte hlen (k := 7) rfl
  refine ⟨?sum, extractLsb'_frameWordOf_byte hlen (k := 0) rfl, extractLsb'_frameWordOf_byte hlen (k := 1) rfl, ?tags,
    extractLsb'_frameWordOf_byte hlen (k := 2) rfl, toNat_extractLsb'_frameWordOf_pair hlen (k := 3) rfl,
    toNat_extractLsb'_frameWordOf_pair hlen (k := 5) rfl, hbyte7, ?switchBits⟩
  case sum =>
    rw [toNat_frameWordOf hlen]
    simp only [frameValue]
    omega
  case tags =>
    rintro rfl rfl
    exact BitVec.eq_of_toNat_eq (toNat_extractLsb'_frameWordOf_pair hlen (k := 0) rfl)
  case switchBits =>
    intro i
    conv_rhs => rw [← hbyte7, BitVec.getLsbD_extractLsb', decide_eq_true i.isLt, Bool.true_and]

end Sys2Proof.Machine
end

section
/-! Proofs about the codes of the ports: the four selector values (R41), the WF2 pattern of a frame word (R45, R46) and
the status numbers of the responses (R43). -/

namespace Sys2Proof.Machine

/-! ### Selectors -/

/-- Two bits have four values, and R41 uses each of them. -/
theorem selector_cases (b : BitVec 2) : b = 0#2 ∨ b = 1#2 ∨ b = 2#2 ∨ b = 3#2 := by
  revert b
  decide

theorem decode_request_format_ok {r : ReqPort} {t : Timestamp} (hop : r.op = 2#2)
    (hlen : r.payload.length = r.plen.toNat) (ht : PinsHold r.ts t) :
    decode (.request r) = .ok (.format r.pgn r.payload r.src (readDst r) t) := by
  rw [decode_request_format hop, readPayload_of_match hlen, readTs_eq_some.mpr ht]
  rfl

/-- Settles O2: one equation of the decoder for each selector. -/
theorem everySelectorValueSelectsItsOperation : Obligations.EverySelectorValueSelectsItsOperation := by
  intro r
  refine ⟨selector_cases r.op, fun hop hlen => ?_, decode_request_encode,
    fun hop hlen t ht => decode_request_format_ok hop hlen ht, fun hop hlen => ?_⟩
  · rw [decode_request_decode hop, readPayload_of_match hlen]
    rfl
  · rw [decode_request_parse hop, readLine_of_match hlen]
    rfl

/-- Settles O7: each word is evaluated. -/
theorem sampleWordsDecode : Obligations.SampleWordsDecode := by
  unfold Obligations.SampleWordsDecode
  decide

/-! ### The frame word -/

/-- The two canonical tags stand in the low 16 bits of a frame's word (R45, R46). -/
theorem wordOfFrame_matches (f : WireFrame) : wordOfFrame f &&& 0xFFFF#64 = 0x9930#64 := by
  have hmatch : matchesWf2 (wordOfFrame f) = true := by
    rw [matchesWf2_iff, wordOfFrame_toNat]
    omega
  exact of_decide_eq_true hmatch

/-- A 16-bit field is its low byte and 256 times its high byte (R28). -/
theorem toNat_low_add_high (v : BitVec 16) :
    (v.extractLsb' 0 8).toNat + 256 * (v.extractLsb' 8 8).toNat = v.toNat := by
  have hv := v.isLt
  rw [BitVec.extractLsb'_toNat, BitVec.extractLsb'_toNat, Nat.shiftRight_eq_div_pow, Nat.shiftRight_eq_div_pow]
  omega

/-- The word of a frame is the integer view of its bytes in byte order (R29, R45): both are the same sum of fields. -/
theorem wordOfFrame_eq_frameWordOf (f : WireFrame) :
    wordOfFrame f =
      frameWordOf [0x30, 0x99, f.inst, f.dimmer0.extractLsb' 0 8, f.dimmer0.extractLsb' 8 8,
        f.dimmer1.extractLsb' 0 8, f.dimmer1.extractLsb' 8 8, f.switches] := by
  have htag0 : (0x30 : Byte).toNat = 0x30 := rfl
  have htag1 : (0x99 : Byte).toNat = 0x99 := rfl
  have h0 := toNat_low_add_high f.dimmer0
  have h1 := toNat_low_add_high f.dimmer1
  apply BitVec.eq_of_toNat_eq
  rw [wordOfFrame_toNat, toNat_frameWordOf le_rfl]
  simp only [frameValue]
  omega

/-- Settles O6: a frame's own word matches, so reading a word as a frame adds no condition beside the match. -/
theorem wireFramePatternRoundTrips : Obligations.WireFramePatternRoundTrips := by
  refine ⟨fun f w => ?_, fun f => ⟨wordOfFrame_matches f, wordOfFrame_eq_frameWordOf f⟩⟩
  rw [frameOfWord_eq_some]
  constructor
  · rintro rfl
    exact ⟨wordOfFrame_matches f, rfl⟩
  · rintro ⟨-, hw⟩
    exact hw

/-! ### The status numbers -/

theorem faultCode_ne_zero (f : FaultName) : faultCode f ≠ 0#3 := by
  cases f <;> decide

/-- A status code is read as a fault exactly if it is that fault's number (R43). -/
theorem faultOfCode_eq_some {c : BitVec 3} {f : FaultName} : faultOfCode c = some f ↔ c = faultCode f := by
  revert c
  cases f <;> decide

/-- Status 0 is `OK` (R14, R43). -/
theorem statusOf_eq_zero {r : Response} : statusOf r = 0#3 ↔ ∀ f : FaultName, r ≠ .fault f := by
  cases r with
  | fault f => exact iff_of_false (faultCode_ne_zero f) fun h => h f rfl
  | _ => exact iff_of_true rfl fun f => Response.noConfusion

/-- Settles O23: the numbers as defined, and that they are read back. -/
theorem statusNumbers : Obligations.StatusNumbers :=
  ⟨rfl, rfl, rfl, rfl, rfl, rfl, fun _ _ => faultOfCode_eq_some, fun _ => statusOf_eq_zero⟩

end Sys2Proof.Machine
end

section
/-! Proofs about the results and faults of each operation (R44), and the count of well-formed frames and states (R46,
R67). -/

namespace Sys2Proof.Machine

/-! ### The faults each operation can raise -/

theorem decodeFrame_error {p : List Byte} {f : FaultName} (h : decodeFrame p = .error f) :
    f = .malformedFrame ∨ f = .outOfRangeInstance ∨ f = .outOfRangeDimmer := by
  by_cases hlen : p.length = 8
  · obtain ⟨b0, b1, b2, b3, b4, b5, b6, b7, rfl⟩ := eight_bytes hlen
    rw [decodeFrame_eight] at h
    split_ifs at h <;> cases h <;> decide
  · rw [decodeFrame_length hlen] at h
    cases h
    exact .inl rfl

theorem encodeFrame_error {m : ModuleState} {f : FaultName} (h : encodeFrame m = .error f) :
    f = .outOfRangeInstance ∨ f = .outOfRangeDimmer := by
  unfold encodeFrame at h
  split_ifs at h <;> cases h <;> decide

theorem formatLine_error {upper : Bool} {g : BitVec 32} {p : List Byte} {a : Byte} {d : Option Byte} {ts : Timestamp}
    {f : FaultName} (h : formatLine upper g p a d ts = .error f) : f = .invalidPayloadLength := by
  unfold formatLine at h
  split_ifs at h
  cases h
  rfl

/-! ### What each operation can answer -/

theorem answerOf_decode_cases (upper : Bool) (p : List Byte) :
    (∃ m, answerOf upper (.decode p) = .decoded m) ∨ answerOf upper (.decode p) = .fault .malformedFrame ∨
      answerOf upper (.decode p) = .fault .outOfRangeInstance ∨
      answerOf upper (.decode p) = .fault .outOfRangeDimmer := by
  cases h : decodeFrame p with
  | ok m => simp [answerOf, h]
  | error f => simpa [answerOf, h] using decodeFrame_error h

theorem answerOf_encode_cases (upper : Bool) (v l0 l1 : Int) (sw : Switches) :
    (∃ p, answerOf upper (.encode v l0 l1 sw) = .encoded p ∧ p.length = 8) ∨
      answerOf upper (.encode v l0 l1 sw) = .fault .outOfRangeInstance ∨
      answerOf upper (.encode v l0 l1 sw) = .fault .outOfRangeDimmer := by
  cases h : encodeFrame ⟨v, l0, l1, sw⟩ with
  | ok p =>
    obtain ⟨hm, rfl⟩ := encodeFrame_eq_ok h
    simp [answerOf, h, (writeFrame_wellFormed hm).length_eq]
  | error f => simpa [answerOf, h] using encodeFrame_error h

theorem answerOf_format_cases (upper : Bool) (g : BitVec 32) (p : List Byte) (a : Byte) (d : Option Byte)
    (ts : Timestamp) :
    (∃ l, answerOf upper (.format g p a d ts) = .formatted l) ∨
      answerOf upper (.format g p a d ts) = .fault .invalidPayloadLength := by
  cases h : formatLine upper g p a d ts with
  | ok l => simp [answerOf, h]
  | error f => simpa [answerOf, h] using formatLine_error h

theorem answerOf_parse_cases (upper : Bool) (l : List Byte) :
    (∃ x, answerOf upper (.parse l) = .parsed x) ∨ answerOf upper (.parse l) = .fault .malformedLine := by
  cases h : parseLine l <;> simp [answerOf, h]

/-- Settles O13: a response is `answerOf` of its request, whose cases each operation's rule gives. -/
theorem eachOperationAnswersItsOwnResultsAndFaults : Obligations.EachOperationAnswersItsOwnResultsAndFaults := by
  refine ⟨fun p s r h => ?_, fun v l0 l1 sw s r h => ?_, fun g p a d ts s r h => ?_, fun l s r h => ?_⟩ <;>
    obtain ⟨-, -, rfl⟩ := answers_iff.mp h
  · exact answerOf_decode_cases s.hexUpper p
  · exact answerOf_encode_cases s.hexUpper v l0 l1 sw
  · exact answerOf_format_cases s.hexUpper g p a d ts
  · exact answerOf_parse_cases s.hexUpper l

/-! ### Counting the well-formed states -/

/-- Switch vectors are the functions from channels to flags. -/
def switchesEquiv : Switches ≃ (Fin 8 → Bool) where
  toFun := swGet
  invFun f := ⟨f 0, f 1, f 2, f 3, f 4, f 5, f 6, f 7⟩
  left_inv _ := rfl
  right_inv f := by
    funext i
    fin_cases i <;> rfl

/-- The well-formed states are the product of the legal module numbers, the legal levels twice, and the switches
(R15). -/
def stateWellFormedEquiv :
    { m : ModuleState // StateWellFormed m } ≃
      Set.Icc (0 : Int) 49 × Set.Icc (0 : Int) 1000 × Set.Icc (0 : Int) 1000 × Switches where
  toFun | ⟨m, hi, hi', h0, h0', h1, h1'⟩ => (⟨m.inst, hi, hi'⟩, ⟨m.level0, h0, h0'⟩, ⟨m.level1, h1, h1'⟩, m.sw)
  invFun | (⟨v, hi, hi'⟩, ⟨l0, h0, h0'⟩, ⟨l1, h1, h1'⟩, sw) => ⟨⟨v, l0, l1, sw⟩, hi, hi', h0, h0', h1, h1'⟩
  left_inv | ⟨_, _, _, _, _, _, _⟩ => rfl
  right_inv | (⟨_, _, _⟩, ⟨_, _, _⟩, ⟨_, _, _⟩, _) => rfl

theorem card_switches : Nat.card Switches = 256 := by
  simp [Nat.card_congr switchesEquiv]

theorem card_Icc_zero (n : Int) : Nat.card (Set.Icc 0 n) = (n + 1).toNat := by
  simp

theorem card_stateWellFormed : Nat.card { m : ModuleState // StateWellFormed m } = 50 * 1001 * 1001 * 256 := by
  rw [Nat.card_congr stateWellFormedEquiv]
  simp only [Nat.card_prod, card_switches, card_Icc_zero]
  rfl

/-! ### ENCODE numbers the well-formed frames by the well-formed states -/

/-- The frame ENCODE writes for a well-formed state (R64, R67). -/
def frameOfState (m : { m : ModuleState // StateWellFormed m }) : { p : List Byte // FrameWellFormed p } :=
  ⟨writeFrame m.1.inst.toNat m.1.level0.toNat m.1.level1.toNat m.1.sw, writeFrame_wellFormed m.2⟩

theorem decodeFrame_frameOfState (m : { m : ModuleState // StateWellFormed m }) :
    decodeFrame (frameOfState m).1 = .ok m.1 :=
  decodeFrame_writeFrame m.2

/-- The low byte of a little-endian pair (R28, R60). -/
theorem ofNat_byte_low (lo hi : Byte) : BitVec.ofNat 8 (lo.toNat + 256 * hi.toNat) = lo := by
  apply BitVec.eq_of_toNat_eq
  rw [BitVec.toNat_ofNat]
  omega

/-- The high byte of a little-endian pair (R28, R60). -/
theorem ofNat_byte_high (lo hi : Byte) : BitVec.ofNat 8 ((lo.toNat + 256 * hi.toNat) / 256) = hi := by
  apply BitVec.eq_of_toNat_eq
  rw [BitVec.toNat_ofNat]
  omega

/-- Every well-formed frame decodes, and to a state that is written as that frame (R66). -/
theorem exists_decodeFrame_of_frameWellFormed {p : List Byte} (h : FrameWellFormed p) :
    ∃ m, decodeFrame p = .ok m ∧ writeFrame m.inst.toNat m.level0.toNat m.level1.toNat m.sw = p := by
  obtain ⟨i, l0, h0, l1, h1, sw, rfl, hi, hd0, hd1⟩ := h
  refine ⟨_, by rw [decodeFrame_eight, if_neg (by omega), if_neg (by omega), if_neg (by omega)], ?_⟩
  rw [writeFrame_eq, pack8_unpack8 sw.isLt]
  simp only [Int.toNat_natCast, ofNat_byte_low, ofNat_byte_high, BitVec.ofNat_toNat, BitVec.setWidth_eq]

theorem frameOfState_bijective : Function.Bijective frameOfState := by
  constructor
  · intro m m' h
    have hdecode := decodeFrame_frameOfState m
    rw [h, decodeFrame_frameOfState m'] at hdecode
    exact Subtype.ext (Except.ok.inj hdecode).symm
  · rintro ⟨p, hp⟩
    obtain ⟨m, hdecode, hwrite⟩ := exists_decodeFrame_of_frameWellFormed hp
    exact ⟨⟨m, decodeFrame_wellFormed hdecode⟩, Subtype.ext hwrite⟩

/-- Settles O31: the states are counted field by field, and ENCODE is a bijection from them onto the frames. -/
theorem numberOfWellFormedFrames : Obligations.NumberOfWellFormedFrames :=
  ⟨(Nat.card_congr (Equiv.ofBijective frameOfState frameOfState_bijective)).symm.trans card_stateWellFormed,
    card_stateWellFormed⟩

end Sys2Proof.Machine
end

section
/-! Proofs about the line FORMAT prints: its timestamp field (R49, R73), its fields (R48), and that it is a line of the
grammar of R47 in the alphabet of R33. -/

namespace Sys2Proof.Machine

/-! ### The timestamp field -/

/-- The 24 characters of the timestamp field, digit by digit (R49). -/
theorem renderTs_chars (t : Timestamp) :
    renderTs t =
      [digitChar (t.year / 1000 % 10), digitChar (t.year / 100 % 10), digitChar (t.year / 10 % 10),
        digitChar (t.year % 10), chDash, digitChar (t.month / 10 % 10), digitChar (t.month % 10), chDash,
        digitChar (t.day / 10 % 10), digitChar (t.day % 10), chT, digitChar (t.hour / 10 % 10),
        digitChar (t.hour % 10), chColon, digitChar (t.minute / 10 % 10), digitChar (t.minute % 10), chColon,
        digitChar (t.second / 10 % 10), digitChar (t.second % 10), chDot, digitChar (t.ms / 100 % 10),
        digitChar (t.ms / 10 % 10), digitChar (t.ms % 10), chZ] := by
  rw [renderTs, pad_two, pad_two, pad_two, pad_two, pad_two, pad_three, pad_four]
  rfl

/-- Settles O45: position by position, and the parser of the field tells two timestamps apart. -/
theorem timestampFieldByPosition : Obligations.TimestampFieldByPosition := by
  intro t
  rw [renderTs_chars, pad_two, pad_two, pad_two, pad_two, pad_two, pad_three, pad_four]
  exact ⟨rfl, rfl, rfl, rfl, rfl, rfl, rfl, rfl, rfl, rfl, rfl, rfl, rfl, rfl, rfl,
    fun t' h => renderTs_inj ((renderTs_chars t).trans h)⟩

/-! ### FORMAT's answer -/

/-- FORMAT answers with a line exactly if the payload has at most 255 bytes, and then with the rendered one (R77). -/
theorem answers_format_iff {s : State} {g : BitVec 32} {p : List Byte} {a : Byte} {d : Option Byte} {ts : Timestamp}
    {l : List Byte} :
    Answers (.format g p a d ts) s (.formatted l) ↔
      Populated s ∧ p.length ≤ 255 ∧ l = renderLine s.hexUpper g p a (effectiveDst d) ts := by
  have hop : isOperation (.format g p a d ts) = true := rfl
  rw [answers_iff]
  by_cases hp : p.length ≤ 255
  · simp [hop, hp, answerOf, formatLine, Config.maxPayloadLen, Nat.not_lt.mpr hp]
  · simp [hp, answerOf, formatLine, Config.maxPayloadLen, Nat.lt_of_not_le hp]

/-! ### The comma-separated fields -/

theorem dec_priority : dec 2 = [0x32] := rfl

/-- Settles O49: a rendered line is cut into the fields it was joined of. -/
theorem lineFieldsInOrder : Obligations.LineFieldsInOrder := by
  intro s g p a d ts l h
  obtain ⟨-, -, rfl⟩ := answers_format_iff.mp h
  rw [splitComma_renderLine s.hexUpper ⟨ts, g, a, effectiveDst d, p⟩]
  exact ⟨by rw [← dec_priority]; rfl, fun hne => if_neg hne, fun heq => if_pos heq⟩

/-! ### The productions of the grammar -/

theorem gdigits_pad {n w : Nat} (h : n < 10 ^ w) : GDigits (pad n w) n := gdigits_iff.mpr (digitsVal_pad h)

theorem gts_renderTs (t : Timestamp) : GTs (renderTs t) t := by
  obtain ⟨hy, -, hmo, -, hd, hh, hmi, hs, hms⟩ := t.inRange
  refine ⟨pad t.year 4, pad t.month 2, pad t.day 2, pad t.hour 2, pad t.minute 2, pad t.second 2, pad t.ms 3, ?_,
    pad_length _ _, pad_length _ _, pad_length _ _, pad_length _ _, pad_length _ _, pad_length _ _, pad_length _ _,
    gdigits_pad (by omega), gdigits_pad (by omega), gdigits_pad (by omega), gdigits_pad (by omega),
    gdigits_pad (by omega), gdigits_pad (by omega), gdigits_pad (by omega)⟩
  simp [renderTs, chDash, chT, chColon, chDot, chZ]

/-- The shortest spelling of a positive number begins with a digit that is not zero (R75). -/
theorem dec_eq_cons_of_pos {n : Nat} (h : 0 < n) :
    ∃ d rest, dec n = digitChar d :: rest ∧ d ≤ 9 ∧ d ≠ 0 := by
  obtain ⟨hwidth, hlt, -⟩ := decWidth_spec n
  obtain ⟨k, hk⟩ : ∃ k, decWidth n = k + 1 := ⟨decWidth n - 1, by omega⟩
  have hlow : 10 ^ k ≤ n := by
    obtain hone | hlead := dec_lead n
    · obtain rfl : k = 0 := by omega
      exact h
    · rwa [hk] at hlead
  have hpos : 1 ≤ n / 10 ^ k := (Nat.one_le_div_iff (by positivity)).mpr hlow
  have hdigit : n / 10 ^ k < 10 := by
    rwa [Nat.div_lt_iff_lt_mul (by positivity), ← Nat.pow_succ', Nat.succ_eq_add_one, ← hk]
  exact ⟨n / 10 ^ k % 10, pad n k, by rw [dec, hk, pad], by omega, by omega⟩

theorem gdecnum_dec (n : Nat) : GDecnum (dec n) n := by
  obtain rfl | hpos := Nat.eq_zero_or_pos n
  · exact .inl ⟨rfl, rfl⟩
  · obtain ⟨d, rest, hcons, hd, hne⟩ := dec_eq_cons_of_pos hpos
    exact .inr ⟨gdigits_iff.mpr (digitsVal_dec n), digitChar d, d, rest, hcons, ⟨hd, digitChar_toNat hd⟩, hne⟩

theorem ghexbyte_hex2 (u : Bool) (b : Byte) : GHexbyte (hex2 u b) b := by
  have hb := b.isLt
  exact ⟨_, _, b.toNat / 16, b.toNat % 16, rfl, ghexdig_iff.mpr (hexVal_hexDigit u (by omega)),
    ghexdig_iff.mpr (hexVal_hexDigit u (by omega)), (Nat.div_add_mod _ _).symm⟩

/-- Behind the first item of a joined list stand the others, each behind its separator. -/
theorem joinWith_eq_append_flatMap (sep : Byte) (x : List Byte) (xs : List (List Byte)) :
    joinWith sep (x :: xs) = x ++ xs.flatMap (sep :: ·) := by
  induction xs generalizing x with
  | nil => simp [joinWith]
  | cons y ys ih => rw [joinWith, ih, List.flatMap_cons, List.cons_append]

theorem ghexrest_flatMap_hex2 (u : Bool) (p : List Byte) :
    GHexrest ((p.map (hex2 u)).flatMap (chComma :: ·)) p := by
  induction p with
  | nil => exact .nil
  | cons b bs ih => exact .cons (hex2 u b) _ b bs (ghexbyte_hex2 u b) ih

theorem ghexlist_joinWith_hex2 (u : Bool) (p : List Byte) : GHexlist (joinWith chComma (p.map (hex2 u))) p := by
  cases p with
  | nil => exact .inl ⟨rfl, rfl⟩
  | cons b bs =>
    exact .inr ⟨hex2 u b, _, b, bs, joinWith_eq_append_flatMap chComma (hex2 u b) (bs.map (hex2 u)), rfl,
      ghexbyte_hex2 u b, ghexrest_flatMap_hex2 u bs⟩

/-- A rendered line is derived by the grammar of R47 and spells the fields it was rendered from. -/
theorem gline_renderLine (u : Bool) {x : LineFields} (h : x.payload.length ≤ 255) :
    GLine (renderLine u x.pgn x.payload x.src x.dst x.ts) x := by
  refine ⟨renderTs x.ts, dec x.pgn.toNat, dec x.src.toNat, dec x.dst.toNat, dec x.payload.length,
    joinWith chComma (x.payload.map (hex2 u)), ?_, gts_renderTs x.ts, gdecnum_dec _, gdecnum_dec _, gdecnum_dec _,
    gdecnum_dec _, h, ghexlist_joinWith_hex2 u x.payload⟩
  simp [renderLine, Config.priority, dec_priority, chComma]

/-! ### The alphabet of a line -/

theorem lineChar_digitChar (u : Bool) {d : Nat} (h : d ≤ 9) : lineChar u (digitChar d) = true := by
  revert u
  interval_cases d <;> decide

theorem lineChar_comma (u : Bool) : lineChar u chComma = true := by
  cases u <;> rfl

theorem lineChar_of_mem_pad (u : Bool) {n w : Nat} {c : Byte} (h : c ∈ pad n w) : lineChar u c = true := by
  obtain ⟨d, hd, rfl⟩ := pad_digit h
  exact lineChar_digitChar u hd

theorem lineChar_of_mem_dec (u : Bool) {n : Nat} {c : Byte} (h : c ∈ dec n) : lineChar u c = true :=
  lineChar_of_mem_pad u h

theorem lineChar_hexDigit (u : Bool) {d : Nat} (h : d ≤ 15) : lineChar u (hexDigit u d) = true := by
  revert u
  interval_cases d <;> decide

theorem lineChar_of_mem_hex2 {u : Bool} {b c : Byte} (h : c ∈ hex2 u b) : lineChar u c = true := by
  have hb := b.isLt
  simp only [hex2, List.mem_cons, List.not_mem_nil, or_false] at h
  obtain rfl | rfl := h
  · exact lineChar_hexDigit u (by omega)
  · exact lineChar_hexDigit u (by omega)

theorem lineChar_of_mem_hexFields {u : Bool} {p f : List Byte} {c : Byte} (hf : f ∈ hexFields u p) (hc : c ∈ f) :
    lineChar u c = true := by
  unfold hexFields at hf
  split_ifs at hf
  · obtain rfl := List.mem_singleton.mp hf
    exact absurd hc List.not_mem_nil
  · obtain ⟨b, -, rfl⟩ := List.mem_map.mp hf
    exact lineChar_of_mem_hex2 hc

theorem forall_lineChar_renderTs (u : Bool) (t : Timestamp) : ∀ c ∈ renderTs t, lineChar u c = true := by
  have hdigits : ∀ n w, ∀ c ∈ pad n w, lineChar u c = true := fun _ _ _ => lineChar_of_mem_pad u
  have hmarks : lineChar u chDash = true ∧ lineChar u chT = true ∧ lineChar u chColon = true ∧
      lineChar u chDot = true ∧ lineChar u chZ = true := by cases u <;> decide
  simp only [renderTs, List.forall_mem_append, List.forall_mem_cons, hmarks, true_and, and_assoc]
  exact ⟨hdigits _ _, hdigits _ _, hdigits _ _, hdigits _ _, hdigits _ _, hdigits _ _, hdigits _ _,
    List.forall_mem_nil _⟩

/-- A joined list holds no character but its separator and those of its items. -/
theorem mem_joinWith {sep c : Byte} {xs : List (List Byte)} (h : c ∈ joinWith sep xs) : c = sep ∨ ∃ x ∈ xs, c ∈ x := by
  cases xs with
  | nil => exact absurd h List.not_mem_nil
  | cons x xs =>
    rw [joinWith_eq_append_flatMap, List.mem_append, List.mem_flatMap] at h
    obtain hx | ⟨y, hy, hc⟩ := h
    · exact .inr ⟨x, List.mem_cons_self, hx⟩
    · obtain rfl | hc := List.mem_cons.mp hc
      · exact .inl rfl
      · exact .inr ⟨y, List.mem_cons_of_mem x hy, hc⟩

theorem lineChar_of_mem_renderLine {u : Bool} {x : LineFields} {c : Byte}
    (h : c ∈ renderLine u x.pgn x.payload x.src x.dst x.ts) : lineChar u c = true := by
  rw [renderLine_eq_join] at h
  obtain rfl | ⟨f, hf, hc⟩ := mem_joinWith h
  · exact lineChar_comma u
  simp only [lineFields, List.mem_cons] at hf
  obtain rfl | rfl | rfl | rfl | rfl | rfl | hf := hf
  · exact forall_lineChar_renderTs u x.ts c hc
  · exact lineChar_of_mem_dec u hc
  · exact lineChar_of_mem_dec u hc
  · exact lineChar_of_mem_dec u hc
  · exact lineChar_of_mem_dec u hc
  · exact lineChar_of_mem_dec u hc
  · exact lineChar_of_mem_hexFields hf hc

/-- Settles O47: the rendered line, production by production and character by character. -/
theorem formattedLineIsInTheGrammar : Obligations.FormattedLineIsInTheGrammar := by
  intro s g p a d ts hs hp
  refine ⟨renderLine s.hexUpper g p a (effectiveDst d) ts, answers_format_iff.mpr ⟨hs, hp, rfl⟩, ?_, ?_⟩
  · exact gline_renderLine s.hexUpper (x := ⟨ts, g, a, effectiveDst d, p⟩) hp
  · exact fun c => lineChar_of_mem_renderLine (x := ⟨ts, g, a, effectiveDst d, p⟩)

end Sys2Proof.Machine
end

section
/-! Proofs that no step puts an unsound response on the response port (R15, R33, R67, R80, R107). -/

namespace Sys2Proof.Machine

/-! ### The length of a line -/

/-- The hex tokens of a line: two characters each, and a comma between each two (R79). -/
theorem length_joinWith_hex2 (u : Bool) (p : List Byte) :
    (joinWith chComma (p.map (hex2 u))).length = 3 * p.length - 1 := by
  induction p with
  | nil => rfl
  | cons b bs ih =>
    cases bs with
    | nil => rfl
    | cons c cs =>
      have htoken : (hex2 u b).length = 2 := rfl
      rw [List.map_cons, joinWith_cons (by simp), List.length_append, List.length_cons, ih, htoken]
      simp only [List.length_cons]
      omega

/-- The length of a line by its parts: the timestamp, PRIORITY, six commas, four decimal fields and the tokens
(R80). -/
theorem length_renderLine (u : Bool) (g : BitVec 32) (p : List Byte) (a d : Byte) (ts : Timestamp) :
    (renderLine u g p a d ts).length =
      31 + (dec g.toNat).length + (dec a.toNat).length + (dec d.toNat).length + (dec p.length).length +
        (3 * p.length - 1) := by
  have hpriority : (dec Config.priority).length = 1 := rfl
  simp only [renderLine, List.length_append, List.length_cons, renderTs_length, length_joinWith_hex2, hpriority]
  omega

theorem length_dec_pos (n : Nat) : 1 ≤ (dec n).length := List.length_pos_iff.mpr (dec_ne_nil n)

/-- A number below `10^w` is spelled in at most `w` digits (R75). -/
theorem length_dec_le {n w : Nat} (hw : 1 ≤ w) (h : n < 10 ^ w) : (dec n).length ≤ w :=
  (dec_length n).trans_le (decWidth_le hw h)

/-- A line with a payload of at most 255 bytes has 35 to 814 characters (R80). -/
theorem length_renderLine_bounds (u : Bool) (g : BitVec 32) {p : List Byte} (hp : p.length ≤ 255) (a d : Byte)
    (ts : Timestamp) : 35 ≤ (renderLine u g p a d ts).length ∧ (renderLine u g p a d ts).length ≤ 814 := by
  have hg := g.isLt
  have ha := a.isLt
  have hd := d.isLt
  have hgmin := length_dec_pos g.toNat
  have hamin := length_dec_pos a.toNat
  have hdmin := length_dec_pos d.toNat
  have hpmin := length_dec_pos p.length
  have hgmax : (dec g.toNat).length ≤ 10 := length_dec_le (by decide) (by omega)
  have hamax : (dec a.toNat).length ≤ 3 := length_dec_le (by decide) (by omega)
  have hdmax : (dec d.toNat).length ≤ 3 := length_dec_le (by decide) (by omega)
  have hpmax : (dec p.length).length ≤ 3 := length_dec_le (by decide) (by omega)
  rw [length_renderLine]
  omega

/-! ### Each operation's answer -/

/-- All that a successful FORMAT says of its operands (R77). -/
theorem formatLine_eq_ok {u : Bool} {g : BitVec 32} {p : List Byte} {a : Byte} {d : Option Byte} {ts : Timestamp}
    {l : List Byte} (h : formatLine u g p a d ts = .ok l) :
    p.length ≤ 255 ∧ l = renderLine u g p a (effectiveDst d) ts := by
  unfold formatLine at h
  split_ifs at h with hp
  cases h
  exact ⟨Nat.le_of_not_lt hp, rfl⟩

/-- A printed line has the length of R80 and the alphabet of R33. -/
theorem responseSound_formatted {u : Bool} {g : BitVec 32} {p : List Byte} {a : Byte} {d : Option Byte}
    {ts : Timestamp} {l : List Byte} (h : formatLine u g p a d ts = .ok l) : ResponseSound u (.formatted l) := by
  obtain ⟨hp, rfl⟩ := formatLine_eq_ok h
  obtain ⟨hmin, hmax⟩ := length_renderLine_bounds u g hp a (effectiveDst d) ts
  exact ⟨hmin, hmax, fun c => lineChar_of_mem_renderLine (x := ⟨ts, g, a, effectiveDst d, p⟩)⟩

theorem responseSound_encoded {u : Bool} {m : ModuleState} {p : List Byte} (h : encodeFrame m = .ok p) :
    ResponseSound u (.encoded p) := by
  obtain ⟨hm, rfl⟩ := encodeFrame_eq_ok h
  exact writeFrame_wellFormed hm

theorem responseSound_parsed {u : Bool} {l : List Byte} {x : LineFields} (h : parseLine l = some x) :
    ResponseSound u (.parsed x) := by
  obtain ⟨-, -, -, hlen⟩ := parseLine_eq_some h
  exact hlen

/-- Every operation answers soundly, whatever its operands (R10, R44). -/
theorem responseSound_answerOf (u : Bool) {i : Instr} (hi : isOperation i = true) :
    ResponseSound u (answerOf u i) := by
  cases i with
  | decode p =>
    cases h : decodeFrame p with
    | ok m =>
      simp only [answerOf, h]
      exact decodeFrame_wellFormed h
    | error f =>
      simp only [answerOf, h]
      rintro rfl
      exact absurd (decodeFrame_error h) (by decide)
  | encode v l0 l1 sw =>
    cases h : encodeFrame ⟨v, l0, l1, sw⟩ with
    | ok p =>
      simp only [answerOf, h]
      exact responseSound_encoded h
    | error f =>
      simp only [answerOf, h]
      rintro rfl
      exact absurd (encodeFrame_error h) (by decide)
  | format g p a d ts =>
    cases h : formatLine u g p a d ts with
    | ok l =>
      simp only [answerOf, h]
      exact responseSound_formatted h
    | error f =>
      simp only [answerOf, h]
      rintro rfl
      exact absurd (formatLine_error h) (by decide)
  | parse l =>
    cases h : parseLine l with
    | some x =>
      simp only [answerOf, h]
      exact responseSound_parsed h
    | none =>
      simp only [answerOf, h]
      exact (by decide : FaultName.malformedLine ≠ .unknownInstance)
  | wf2 f => cases hi

/-! ### The obligation -/

/-- Settles O20: a step keeps HEX_UPPER and the earlier responses, and adds at most the sound answer of an
operation. -/
theorem stepKeepsPendingResponsesSound : Obligations.StepKeepsPendingResponsesSound := by
  intro s t hinv hstep
  obtain ⟨-, ⟨-, rfl⟩ | ⟨w, rest, i, -, -, hi, rfl⟩⟩ := step_next hstep
  · exact hinv
  · intro r hr
    obtain hr | hr := List.mem_append.mp hr
    · exact hinv r hr
    · obtain rfl := List.mem_singleton.mp hr
      exact responseSound_answerOf s.hexUpper hi

end Sys2Proof.Machine
end

section
/-! Proofs that DECODE and ENCODE are inverse to each other, up to the two tag bytes (R65 to R67, R125). -/

namespace Sys2Proof.Machine

/-! ### What DECODE and ENCODE answer -/

section
variable {s : State} {m : ModuleState} {p : List Byte} {f : FaultName}

theorem answers_decoded_iff : Answers (.decode p) s (.decoded m) ↔ Populated s ∧ decodeFrame p = .ok m := by
  have hop : isOperation (.decode p) = true := rfl
  rw [answers_iff]
  cases h : decodeFrame p <;> simp [hop, answerOf, h, eq_comm]

theorem answers_decode_fault_iff : Answers (.decode p) s (.fault f) ↔ Populated s ∧ decodeFrame p = .error f := by
  have hop : isOperation (.decode p) = true := rfl
  rw [answers_iff]
  cases h : decodeFrame p <;> simp [hop, answerOf, h, eq_comm]

theorem answers_encoded_iff : Answers (encodeOf m) s (.encoded p) ↔ Populated s ∧ encodeFrame m = .ok p := by
  have hop : isOperation (encodeOf m) = true := rfl
  rw [answers_iff]
  cases h : encodeFrame m <;> simp [hop, answerOf, h, eq_comm]

theorem answers_encode_fault_iff : Answers (encodeOf m) s (.fault f) ↔ Populated s ∧ encodeFrame m = .error f := by
  have hop : isOperation (encodeOf m) = true := rfl
  rw [answers_iff]
  cases h : encodeFrame m <;> simp [hop, answerOf, h, eq_comm]

end

/-! ### DECODE of an encoded frame -/

/-- ENCODE succeeds exactly on the well-formed states (R64, R67). -/
theorem encodeFrame_eq_ok_iff {m : ModuleState} {p : List Byte} :
    encodeFrame m = .ok p ↔ StateWellFormed m ∧ p = writeFrame m.inst.toNat m.level0.toNat m.level1.toNat m.sw := by
  constructor
  · exact encodeFrame_eq_ok
  · rintro ⟨hm, rfl⟩
    exact encodeFrame_ok hm

/-- What ENCODE writes, DECODE reads back (R65). -/
theorem decodeFrame_of_encodeFrame {m : ModuleState} {p : List Byte} (h : encodeFrame m = .ok p) :
    decodeFrame p = .ok m := by
  obtain ⟨hm, rfl⟩ := encodeFrame_eq_ok h
  exact decodeFrame_writeFrame hm

/-! ### ENCODE of a decoded frame -/

/-- DECODE of eight bytes in range (R63). -/
theorem decodeFrame_of_inRange {b2 b3 b4 b5 b6 : Byte} (hinst : b2.toNat ≤ 49) (h0 : b3.toNat + 256 * b4.toNat ≤ 1000)
    (h1 : b5.toNat + 256 * b6.toNat ≤ 1000) (b0 b1 b7 : Byte) :
    decodeFrame [b0, b1, b2, b3, b4, b5, b6, b7] =
      .ok ⟨b2.toNat, (b3.toNat + 256 * b4.toNat : Nat), (b5.toNat + 256 * b6.toNat : Nat), unpack8 b7.toNat⟩ := by
  rw [decodeFrame_eight, if_neg (by omega), if_neg (by omega), if_neg (by omega)]

/-- The payload with its two tag bytes made canonical (R66). -/
def canonicalTags (p : List Byte) : List Byte := 0x30 :: 0x99 :: p.drop 2

/-- DECODE does not read the tags (R63). -/
theorem decodeFrame_canonicalTags {p : List Byte} (h : p.length = 8) : decodeFrame (canonicalTags p) = decodeFrame p := by
  obtain ⟨b0, b1, b2, b3, b4, b5, b6, b7, rfl⟩ := eight_bytes h
  exact (decodeFrame_eight _ _ _ _ _ _ _ _).trans (decodeFrame_eight _ _ _ _ _ _ _ _).symm

theorem frameWellFormed_canonicalTags {p : List Byte} {m : ModuleState} (h : decodeFrame p = .ok m) :
    FrameWellFormed (canonicalTags p) := by
  obtain ⟨b0, b1, b2, b3, b4, b5, b6, b7, rfl, hinst, h0, h1, -⟩ := decodeFrame_ok h
  exact ⟨b2, b3, b4, b5, b6, b7, rfl, hinst, h0, h1⟩

/-- Every well-formed frame decodes to a state that ENCODE turns into that frame (R66). -/
theorem exists_decodeFrame_encodeFrame {p : List Byte} (h : FrameWellFormed p) :
    ∃ m, decodeFrame p = .ok m ∧ encodeFrame m = .ok p := by
  obtain ⟨m, hdecode, hwrite⟩ := exists_decodeFrame_of_frameWellFormed h
  exact ⟨m, hdecode, encodeFrame_eq_ok_iff.mpr ⟨decodeFrame_wellFormed hdecode, hwrite.symm⟩⟩

theorem length_of_decodeFrame_ok {p : List Byte} {m : ModuleState} (h : decodeFrame p = .ok m) : p.length = 8 := by
  obtain ⟨b0, b1, b2, b3, b4, b5, b6, b7, rfl, -⟩ := decodeFrame_ok h
  rfl

/-- What DECODE reads, ENCODE writes back with canonical tags (R66). -/
theorem encodeFrame_of_decodeFrame {p : List Byte} {m : ModuleState} (h : decodeFrame p = .ok m) :
    encodeFrame m = .ok (canonicalTags p) := by
  obtain ⟨m', hdecode, hencode⟩ := exists_decodeFrame_encodeFrame (frameWellFormed_canonicalTags h)
  rw [decodeFrame_canonicalTags (length_of_decodeFrame_ok h), h] at hdecode
  obtain rfl := Except.ok.inj hdecode
  exact hencode

/-! ### The obligations -/

/-- Settles O28: the frame is the one ENCODE writes, and DECODE inverts the write. -/
theorem decodeAfterEncode : Obligations.DecodeAfterEncode := by
  intro s s' m hs hs' hm
  have hencode := encodeFrame_ok hm
  exact ⟨_, answers_encoded_iff.mpr ⟨hs, hencode⟩, answers_decoded_iff.mpr ⟨hs', decodeFrame_of_encodeFrame hencode⟩⟩

/-- Settles O29: ENCODE of what DECODE reads makes the tags canonical, which leaves a well-formed frame as it is. -/
theorem encodeAfterDecode : Obligations.EncodeAfterDecode := by
  intro s s' p hs hs'
  refine ⟨fun m h => ?_, fun hp => ?_⟩
  · obtain ⟨-, hdecode⟩ := answers_decoded_iff.mp h
    exact answers_encoded_iff.mpr ⟨hs', encodeFrame_of_decodeFrame hdecode⟩
  · obtain ⟨m, hdecode, hencode⟩ := exists_decodeFrame_encodeFrame hp
    exact ⟨m, answers_decoded_iff.mpr ⟨hs, hdecode⟩, answers_encoded_iff.mpr ⟨hs', hencode⟩⟩

/-- Settles O30: onto by decoding the frame, one-to-one because DECODE inverts ENCODE, and DECODE's domain by its
equation on eight bytes. -/
theorem encodeIsABijectionOntoFrames : Obligations.EncodeIsABijectionOntoFrames := by
  intro s hs
  refine ⟨fun p => ⟨fun hp => ?onto, ?into⟩, fun m m' p h h' => ?injective, fun p => ⟨?domain, ?decodes⟩⟩
  case onto =>
    obtain ⟨m, hdecode, hencode⟩ := exists_decodeFrame_encodeFrame hp
    exact ⟨m, decodeFrame_wellFormed hdecode, answers_encoded_iff.mpr ⟨hs, hencode⟩⟩
  case into =>
    rintro ⟨m, hm, h⟩
    obtain ⟨-, rfl⟩ := encodeFrame_eq_ok (answers_encoded_iff.mp h).2
    exact writeFrame_wellFormed hm
  case injective =>
    have hm := decodeFrame_of_encodeFrame (answers_encoded_iff.mp h).2
    have hm' := decodeFrame_of_encodeFrame (answers_encoded_iff.mp h').2
    exact Except.ok.inj (hm.symm.trans hm')
  case domain =>
    rintro ⟨m, h⟩
    obtain ⟨b0, b1, b2, b3, b4, b5, b6, b7, rfl, hinst, h0, h1, -⟩ := decodeFrame_ok (answers_decoded_iff.mp h).2
    exact ⟨b0, b1, b2, b3, b4, b5, b6, b7, rfl, hinst, h0, h1⟩
  case decodes =>
    rintro ⟨b0, b1, b2, b3, b4, b5, b6, b7, rfl, hinst, h0, h1⟩
    exact ⟨_, answers_decoded_iff.mpr ⟨hs, decodeFrame_of_inRange hinst h0 h1 b0 b1 b7⟩⟩

end Sys2Proof.Machine
end

section
/-! Proofs about the fields of a frame: the switch byte (R61, R62), the 16-bit fields (R59, R60), what DECODE and ENCODE
make of every operand (R63, R64), and that the channels are independent (R71). -/

namespace Sys2Proof.Machine

/-! ### The switch byte -/

/-- `unpack8` channel by channel (R61). -/
theorem unpack8_toNat (b : Byte) :
    unpack8 b.toNat = ⟨b.getLsbD 0, b.getLsbD 1, b.getLsbD 2, b.getLsbD 3, b.getLsbD 4, b.getLsbD 5, b.getLsbD 6,
      b.getLsbD 7⟩ :=
  switches_ext fun i => by
    rw [swGet_unpack8]
    fin_cases i <;> rfl

/-- Bit `i` of the switch byte ENCODE writes is channel `i` (R62, R71). -/
theorem getLsbD_pack8 (sw : Switches) (i : Fin 8) : (BitVec.ofNat 8 (pack8 sw)).getLsbD i.val = swGet sw i := by
  rw [← swGet_unpack8, BitVec.toNat_ofNat, Nat.mod_eq_of_lt (pack8_lt sw), unpack8_pack8]

/-- Changing bit `i` of the byte and no other changes channel `i` and no other (R71). -/
theorem unpack8_eq_swSet {b b' : Byte} {i : Fin 8} (h : ∀ j : Fin 8, j ≠ i → b'.getLsbD j.val = b.getLsbD j.val) :
    unpack8 b'.toNat = swSet (unpack8 b.toNat) i (b'.getLsbD i.val) := by
  apply switches_ext
  intro j
  rw [swGet_swSet, swGet_unpack8, swGet_unpack8]
  split
  next hj => rw [hj]
  next hj => exact h j hj

/-- The packed byte as a sum over the channels (R62). -/
theorem pack8_eq_sum (sw : Switches) : pack8 sw = ∑ i : Fin 8, (if swGet sw i = true then 1 else 0) * 2 ^ i.val := by
  rw [Fin.sum_univ_eight, Fin.val_zero, pow_zero, mul_one]
  rfl

/-- Settles O33: bit by bit, and the two directions of the inverse. -/
theorem switchByteIsItsChannels : Obligations.SwitchByteIsItsChannels :=
  ⟨swGet_unpack8, pack8_eq_sum, unpack8_pack8, fun b => pack8_unpack8 b.isLt⟩

/-! ### The 16-bit fields -/

/-- A number and its remainder by 256 have the same low byte. -/
theorem ofNat_byte_mod (n : Nat) : BitVec.ofNat 8 (n % 256) = BitVec.ofNat 8 n := by
  apply BitVec.eq_of_toNat_eq
  rw [BitVec.toNat_ofNat, BitVec.toNat_ofNat, Nat.mod_mod]

/-- The read is the little-endian value of the two bytes at its offset (R59). -/
theorem rd16_eq {p : List Byte} {off : Nat} {b0 b1 : Byte} (h : off + 2 ≤ p.length) (h0 : p[off]? = some b0)
    (h1 : p[off + 1]? = some b1) : rd16 p off h = b0.toNat + 256 * b1.toNat := by
  obtain ⟨-, rfl⟩ := List.getElem?_eq_some_iff.mp h0
  obtain ⟨-, rfl⟩ := List.getElem?_eq_some_iff.mp h1
  rfl

/-- The write sets the two bytes at its offset (R60). -/
theorem wr16_eq_set (p : List Byte) (off v : Nat) :
    wr16 p off v = (p.set off (BitVec.ofNat 8 (v % 256))).set (off + 1) (BitVec.ofNat 8 (v / 256)) := by
  simp only [wr16, memWrite16, memWrite8, ofNat_byte_mod]

section
variable {p : List Byte} {off : Nat} (v : Nat) (h : off + 2 ≤ p.length)
include h

theorem getElem?_wr16_low : (wr16 p off v)[off]? = some (BitVec.ofNat 8 (v % 256)) := by
  rw [wr16_eq_set, List.getElem?_set_ne (by omega), List.getElem?_set_self (by omega)]

theorem getElem?_wr16_high : (wr16 p off v)[off + 1]? = some (BitVec.ofNat 8 (v / 256)) := by
  rw [wr16_eq_set, List.getElem?_set_self (by rw [List.length_set]; omega)]

end

@[simp] theorem length_wr16 (p : List Byte) (off v : Nat) : (wr16 p off v).length = p.length := by
  rw [wr16_eq_set, List.length_set, List.length_set]

theorem getElem?_wr16_ne (p : List Byte) (off v : Nat) {k : Nat} (h0 : k ≠ off) (h1 : k ≠ off + 1) :
    (wr16 p off v)[k]? = p[k]? := by
  rw [wr16_eq_set, List.getElem?_set_ne h1.symm, List.getElem?_set_ne h0.symm]

/-- The read gives back what was written (R59, R60). -/
theorem rd16_wr16 {p : List Byte} {off v : Nat} (hv : v ≤ 65535) (h : off + 2 ≤ p.length)
    (h' : off + 2 ≤ (wr16 p off v).length) : rd16 (wr16 p off v) off h' = v := by
  rw [rd16_eq h' (getElem?_wr16_low v h) (getElem?_wr16_high v h), BitVec.toNat_ofNat, BitVec.toNat_ofNat]
  omega

/-- Settles O34: the read's and the write's bytes, and the read after the write. -/
theorem dimmerFieldReadsBack : Obligations.DimmerFieldReadsBack := by
  refine ⟨fun p off b0 b1 h h0 h1 => ?_, fun p off v hv h => ?_⟩
  · have hb0 := b0.isLt
    have hb1 := b1.isLt
    rw [rd16_eq h h0 h1]
    omega
  · exact ⟨⟨(length_wr16 p off v).symm ▸ h, rd16_wr16 hv h _⟩, getElem?_wr16_low v h, getElem?_wr16_high v h,
      fun _ => by omega, length_wr16 p off v, fun k => getElem?_wr16_ne p off v⟩

/-! ### Every operand of DECODE and ENCODE -/

/-- Settles O26: DECODE's equation on eight bytes, and its fault on any other length. -/
theorem decodeReadsTheFrame : Obligations.DecodeReadsTheFrame := by
  intro s hs
  refine ⟨fun p hp => answers_decode_fault_iff.mpr ⟨hs, decodeFrame_length hp⟩, fun b0 b1 b2 b3 b4 b5 b6 b7 => ?_⟩
  have hframe := decodeFrame_eight b0 b1 b2 b3 b4 b5 b6 b7
  split_ifs with hinst hlevel
  · rw [if_pos hinst] at hframe
    exact answers_decode_fault_iff.mpr ⟨hs, hframe⟩
  · rw [if_neg hinst, ← ite_or, if_pos hlevel] at hframe
    exact answers_decode_fault_iff.mpr ⟨hs, hframe⟩
  · rw [if_neg hinst, ← ite_or, if_neg hlevel, unpack8_toNat] at hframe
    exact answers_decoded_iff.mpr ⟨hs, hframe⟩

theorem encodeFrame_of_inst_outOfRange {m : ModuleState} (h : m.inst < 0 ∨ 49 < m.inst) :
    encodeFrame m = .error .outOfRangeInstance := by
  have hinst : instInRange m.inst = false := by
    rw [← Bool.not_eq_true, instInRange_iff]
    omega
  rw [encodeFrame, hinst]
  rfl

theorem encodeFrame_of_level_outOfRange {m : ModuleState} (hinst : 0 ≤ m.inst ∧ m.inst ≤ 49)
    (h : m.level0 < 0 ∨ 1000 < m.level0 ∨ m.level1 < 0 ∨ 1000 < m.level1) :
    encodeFrame m = .error .outOfRangeDimmer := by
  simp only [encodeFrame, Bool.not_eq_true', ← Bool.not_eq_true, instInRange_iff, levelInRange_iff]
  rw [if_neg (not_not.mpr hinst), ← ite_or, if_pos (by omega)]

/-- The eight bytes of a state in range, with its fields as the integers they are (R64). -/
theorem writeFrame_eq_ofInt {v l0 l1 : Int} (hv : 0 ≤ v) (h0 : 0 ≤ l0) (h1 : 0 ≤ l1) (sw : Switches) :
    writeFrame v.toNat l0.toNat l1.toNat sw =
      [0x30, 0x99, BitVec.ofInt 8 v, BitVec.ofInt 8 (l0 % 256), BitVec.ofInt 8 (l0 / 256), BitVec.ofInt 8 (l1 % 256),
        BitVec.ofInt 8 (l1 / 256), BitVec.ofNat 8 (pack8 sw)] := by
  lift v to Nat using hv
  lift l0 to Nat using h0
  lift l1 to Nat using h1
  have hbyte : ∀ n : Nat, BitVec.ofInt 8 (n % 256 : Int) = BitVec.ofNat 8 n ∧
      BitVec.ofInt 8 (n / 256 : Int) = BitVec.ofNat 8 (n / 256) := fun n =>
    ⟨(BitVec.ofInt_natCast 8 (n % 256)).trans (ofNat_byte_mod n), BitVec.ofInt_natCast 8 (n / 256)⟩
  simp only [writeFrame_eq, Int.toNat_natCast, BitVec.ofInt_natCast, hbyte]

/-- Settles O27: the range checks in their order, then the written frame. -/
theorem encodeWritesTheFrame : Obligations.EncodeWritesTheFrame := by
  intro s v l0 l1 sw hs
  refine ⟨fun hv => ?_, fun hv hv' hl => ?_, fun hv hv' h0 h0' h1 h1' => ?_⟩
  · exact answers_encode_fault_iff (m := ⟨v, l0, l1, sw⟩).mpr ⟨hs, encodeFrame_of_inst_outOfRange hv⟩
  · exact answers_encode_fault_iff (m := ⟨v, l0, l1, sw⟩).mpr ⟨hs, encodeFrame_of_level_outOfRange ⟨hv, hv'⟩ hl⟩
  · have hencode := encodeFrame_ok (m := ⟨v, l0, l1, sw⟩) ⟨hv, hv', h0, h0', h1, h1'⟩
    exact ⟨BitVec.ofNat 8 (pack8 sw), _, getLsbD_pack8 sw, writeFrame_eq_ofInt hv h0 h1 sw,
      answers_encoded_iff.mpr ⟨hs, hencode⟩, rfl, rfl⟩

/-! ### Independence of the channels -/

section
variable {m : ModuleState} {p : List Byte}

/-- ENCODE of a state with other switches differs in byte 7 only (R71). -/
theorem encodeFrame_with_switches (h : encodeFrame m = .ok p) (sw : Switches) :
    encodeFrame { m with sw := sw } = .ok (p.take 7 ++ [BitVec.ofNat 8 (pack8 sw)]) := by
  obtain ⟨hm, rfl⟩ := encodeFrame_eq_ok h
  exact encodeFrame_eq_ok_iff.mpr ⟨hm, by rw [writeFrame_eq, writeFrame_eq]; rfl⟩

/-- ENCODE of a state with another level 0 in range differs in bytes 3 and 4 only (R71). -/
theorem encodeFrame_with_level0 (h : encodeFrame m = .ok p) {v : Int} (hv : 0 ≤ v) (hv' : v ≤ 1000) :
    encodeFrame { m with level0 := v } =
      .ok (p.take 3 ++ [BitVec.ofNat 8 v.toNat, BitVec.ofNat 8 (v.toNat / 256)] ++ p.drop 5) := by
  obtain ⟨⟨hi, hi', -, -, h1, h1'⟩, rfl⟩ := encodeFrame_eq_ok h
  exact encodeFrame_eq_ok_iff.mpr ⟨⟨hi, hi', hv, hv', h1, h1'⟩, by rw [writeFrame_eq, writeFrame_eq]; rfl⟩

/-- ENCODE of a state with another level 1 in range differs in bytes 5 and 6 only (R71). -/
theorem encodeFrame_with_level1 (h : encodeFrame m = .ok p) {v : Int} (hv : 0 ≤ v) (hv' : v ≤ 1000) :
    encodeFrame { m with level1 := v } =
      .ok (p.take 5 ++ [BitVec.ofNat 8 v.toNat, BitVec.ofNat 8 (v.toNat / 256)] ++ p.drop 7) := by
  obtain ⟨⟨hi, hi', h0, h0', -, -⟩, rfl⟩ := encodeFrame_eq_ok h
  exact encodeFrame_eq_ok_iff.mpr ⟨⟨hi, hi', h0, h0', hv, hv'⟩, by rw [writeFrame_eq, writeFrame_eq]; rfl⟩

/-- DECODE takes the switches from byte 7 and nothing else from it (R71). -/
theorem decodeFrame_with_switches {q : List Byte} {b : Byte} (hq : q.length = 7) (h : decodeFrame (q ++ [b]) = .ok m)
    (b' : Byte) : m.sw = unpack8 b.toNat ∧ decodeFrame (q ++ [b']) = .ok { m with sw := unpack8 b'.toNat } := by
  obtain ⟨b0, b1, b2, b3, b4, b5, b6, b7, hp, hinst, h0, h1, rfl⟩ := decodeFrame_ok h
  obtain ⟨rfl, hb⟩ : q = [b0, b1, b2, b3, b4, b5, b6] ∧ [b] = [b7] := List.append_inj hp hq
  obtain rfl := List.singleton_inj.mp hb
  exact ⟨rfl, decodeFrame_of_inRange hinst h0 h1 b0 b1 b'⟩

section
variable {lo hi : Byte} (hlevel : lo.toNat + 256 * hi.toNat ≤ 1000)
include hlevel

/-- DECODE takes level 0 from bytes 3 and 4 and nothing else from them (R71). -/
theorem decodeFrame_with_level0 (h : decodeFrame p = .ok m) :
    decodeFrame (p.take 3 ++ [lo, hi] ++ p.drop 5) = .ok { m with level0 := (lo.toNat + 256 * hi.toNat : Nat) } := by
  obtain ⟨b0, b1, b2, b3, b4, b5, b6, b7, rfl, hinst, -, h1, rfl⟩ := decodeFrame_ok h
  exact decodeFrame_of_inRange hinst hlevel h1 b0 b1 b7

/-- DECODE takes level 1 from bytes 5 and 6 and nothing else from them (R71). -/
theorem decodeFrame_with_level1 (h : decodeFrame p = .ok m) :
    decodeFrame (p.take 5 ++ [lo, hi] ++ p.drop 7) = .ok { m with level1 := (lo.toNat + 256 * hi.toNat : Nat) } := by
  obtain ⟨b0, b1, b2, b3, b4, b5, b6, b7, rfl, hinst, h0, -, rfl⟩ := decodeFrame_ok h
  exact decodeFrame_of_inRange hinst h0 hlevel b0 b1 b7

end

end

/-- Settles O32: each direction is the equation of ENCODE or DECODE with one field replaced. -/
theorem lanesAndDimmersAreIndependent : Obligations.LanesAndDimmersAreIndependent := by
  intro s m i hs
  refine ⟨fun v p h => ?laneToBit, fun q b b' hq hbits h => ?bitToLane, fun v p hv hv' h => ?levelToBytes,
    fun lo hi p hlevel h => ?bytesToLevel⟩
  case laneToBit =>
    obtain ⟨-, hencode⟩ := answers_encoded_iff.mp h
    have hp : p = p.take 7 ++ [BitVec.ofNat 8 (pack8 m.sw)] :=
      Except.ok.inj (hencode.symm.trans (encodeFrame_with_switches hencode m.sw))
    refine ⟨_, _, hp, answers_encoded_iff.mpr ⟨hs, encodeFrame_with_switches hencode (swSet m.sw i v)⟩, fun j => ?_⟩
    rw [getLsbD_pack8, getLsbD_pack8, swGet_swSet]
  case bitToLane =>
    obtain ⟨hsw, hdecode⟩ := decodeFrame_with_switches hq (answers_decoded_iff.mp h).2 b'
    rw [unpack8_eq_swSet hbits, ← hsw] at hdecode
    exact answers_decoded_iff.mpr ⟨hs, hdecode⟩
  case levelToBytes =>
    obtain ⟨-, hencode⟩ := answers_encoded_iff.mp h
    refine ⟨BitVec.ofNat 8 v.toNat, BitVec.ofNat 8 (v.toNat / 256), ?_,
      answers_encoded_iff.mpr ⟨hs, encodeFrame_with_level0 hencode hv hv'⟩,
      answers_encoded_iff.mpr ⟨hs, encodeFrame_with_level1 hencode hv hv'⟩⟩
    rw [BitVec.toNat_ofNat, BitVec.toNat_ofNat]
    omega
  case bytesToLevel =>
    obtain ⟨-, hdecode⟩ := answers_decoded_iff.mp h
    exact ⟨answers_decoded_iff.mpr ⟨hs, decodeFrame_with_level0 hlevel hdecode⟩,
      answers_decoded_iff.mpr ⟨hs, decodeFrame_with_level1 hlevel hdecode⟩⟩

end Sys2Proof.Machine
end

section
/-! Proofs about the host-side maps between levels and ratios (R68, R69). -/

namespace Sys2Proof.Machine

/-! ### Rounding -/

/-- `round` goes down only within one half of the floor, and up only from one half on (R69). -/
theorem roundNearest_cases (x : Rat) :
    (roundNearest x = x.floor ∧ x - x.floor ≤ 1 / 2) ∨ (roundNearest x = x.floor + 1 ∧ 1 / 2 ≤ x - x.floor) := by
  unfold roundNearest
  split_ifs with hlow hhigh
  · exact .inl ⟨rfl, hlow.le⟩
  · exact .inr ⟨rfl, hhigh.le⟩
  · exact .inr ⟨rfl, not_lt.mp hlow⟩
  · exact .inl ⟨rfl, not_lt.mp hhigh⟩

/-- `round` picks a nearest integer, whichever way a tie goes (R69, U2). -/
theorem abs_roundNearest_sub_le (x : Rat) : |(roundNearest x : Rat) - x| ≤ 1 / 2 := by
  have hfloor := Rat.floor_le x
  have hfloor' := Rat.lt_floor_add_one x
  push_cast at hfloor'
  rw [abs_le]
  obtain ⟨hround, hx⟩ | ⟨hround, hx⟩ := roundNearest_cases x
  · rw [hround]
    constructor <;> linarith
  · rw [hround]
    push_cast
    constructor <;> linarith

/-- An integer is nearer to itself than one half, and to no other integer. -/
theorem roundNearest_intCast (m : Int) : roundNearest m = m := by
  have hdist := abs_roundNearest_sub_le m
  have hlt : |roundNearest m - m| < 1 := by
    have : |((roundNearest m - m : Int) : Rat)| < 1 := by
      push_cast
      linarith
    exact_mod_cast this
  exact sub_eq_zero.mp (Int.abs_lt_one_iff.mp hlt)

/-! ### The maps -/

theorem ratioOfLevel_eq (m : Int) : ratioOfLevel m = (m : Rat) / 1000 := by
  simp [ratioOfLevel]

theorem levelOfRatio_eq (q : Rat) : levelOfRatio q = roundNearest (q * 1000) := by
  simp [levelOfRatio]

/-- Settles O40: scaling back a level's ratio gives the level, and `round` stays within one half. -/
theorem levelOfRatioRoundTrips : Obligations.LevelOfRatioRoundTrips := by
  refine ⟨ratioOfLevel_eq, fun m => ?_, fun q => ?_⟩
  · rw [levelOfRatio_eq, ratioOfLevel_eq, div_mul_cancel₀ _ (by norm_num), roundNearest_intCast]
  · rw [levelOfRatio_eq]
    exact abs_roundNearest_sub_le (q * 1000)

end Sys2Proof.Machine
end

section
/-! Proofs that the sub-parsers of PARSE accept exactly what the productions of the grammar derive (R84, R47). -/

namespace Sys2Proof.Machine

/-! ### Decimal fields and the timestamp -/

/-- A digit string of the grammar is the padding of the number it spells. -/
theorem eq_pad_of_gdigits {f : List Byte} {v w : Nat} (h : GDigits f v) (hw : f.length = w) : f = pad v w := by
  subst hw
  exact (digitsVal_eq_some.mp (gdigits_iff.mp h)).2

/-- A decimal number of the grammar is its one shortest spelling (R47, R75). -/
theorem gdecnum_iff {f : List Byte} {v : Nat} : GDecnum f v ↔ f = dec v := by
  constructor
  · rintro (⟨rfl, rfl⟩ | ⟨hdigits, c, d, rest, rfl, ⟨hd, hc⟩, hne⟩)
    · rfl
    · have hlead : c ≠ chZero := by
        rintro rfl
        exact hne (Nat.add_left_cancel (hc.symm : 0x30 + d = 0x30 + 0))
      refine (parseDec_eq_some.mp ?_ : _ ∧ v ≤ v).1
      simp [parseDec, hlead, gdigits_iff.mp hdigits]
  · rintro rfl
    exact gdecnum_dec v

/-- A timestamp of the grammar is the rendering of the instant it spells (R47, R73). -/
theorem gts_iff {f : List Byte} {t : Timestamp} : GTs f t ↔ f = renderTs t := by
  constructor
  · rintro ⟨y, mo, d, h, mi, s, ms, rfl, ly, lmo, ld, lh, lmi, ls, lms, gy, gmo, gd, gh, gmi, gs, gms⟩
    rw [eq_pad_of_gdigits gy ly, eq_pad_of_gdigits gmo lmo, eq_pad_of_gdigits gd ld, eq_pad_of_gdigits gh lh,
      eq_pad_of_gdigits gmi lmi, eq_pad_of_gdigits gs ls, eq_pad_of_gdigits gms lms]
    simp [renderTs, chDash, chT, chColon, chDot, chZ]
  · rintro rfl
    exact gts_renderTs t

/-! ### Hex tokens -/

theorem parseHex2_iff_ghexbyte {f : List Byte} {b : Byte} : parseHex2 f = some b ↔ GHexbyte f b := by
  constructor
  · intro h
    unfold parseHex2 at h
    split at h
    · split at h
      next vh vl hh hl =>
        obtain ⟨hvh, -⟩ := hexVal_eq_some hh false
        obtain ⟨hvl, -⟩ := hexVal_eq_some hl false
        obtain rfl := Option.some.inj h
        refine ⟨_, _, vh, vl, rfl, ghexdig_iff.mpr hh, ghexdig_iff.mpr hl, ?_⟩
        rw [BitVec.toNat_ofNat]
        omega
      next => cases h
    · cases h
  · rintro ⟨h, l, vh, vl, rfl, hh, hl, hb⟩
    simp [parseHex2, ghexdig_iff.mp hh, ghexdig_iff.mp hl, ← hb]

/-- The tokens behind the first one, each with its comma before it (R47). -/
theorem ghexrest_iff {l p : List Byte} :
    GHexrest l p ↔ ∃ toks, l = toks.flatMap (chComma :: ·) ∧ parseHexList toks = some p := by
  constructor
  · intro h
    induction h with
    | nil => exact ⟨[], rfl, rfl⟩
    | cons f l b bs hb _ ih =>
      obtain ⟨toks, rfl, htoks⟩ := ih
      exact ⟨f :: toks, rfl, by simp [parseHexList, parseHex2_iff_ghexbyte.mpr hb, htoks]⟩
  · rintro ⟨toks, rfl, h⟩
    induction toks generalizing p with
    | nil =>
      obtain rfl := Option.some.inj h
      exact .nil
    | cons f toks ih =>
      simp only [parseHexList] at h
      split at h
      next b bs hb hbs =>
        obtain rfl := Option.some.inj h
        exact .cons f _ b bs (parseHex2_iff_ghexbyte.mp hb) (ih hbs)
      next => cases h

theorem comma_not_mem_of_parseHexList {toks : List (List Byte)} {p : List Byte} (h : parseHexList toks = some p) :
    ∀ f ∈ toks, chComma ∉ f := by
  intro f hf hc
  have hmem : f.map (hexCase false) ∈ p.map (hex2 false) :=
    parseHexList_eq_some h false ▸ List.mem_map_of_mem hf
  obtain ⟨b, -, hb⟩ := List.mem_map.mp hmem
  exact comma_not_mem_hex2 false b (hb ▸ List.mem_map_of_mem (f := hexCase false) hc)

/-- The hex list of a line, cut at its commas, is what PARSE reads its payload from (R47, R83). -/
theorem ghexlist_iff {l p : List Byte} : GHexlist l p ↔ parsePayload p.length (splitComma l) = some p := by
  constructor
  · rintro (⟨rfl, rfl⟩ | ⟨f, rest, b, bs, rfl, rfl, hb, hrest⟩)
    · rfl
    · obtain ⟨toks, rfl, htoks⟩ := ghexrest_iff.mp hrest
      have hlist : parseHexList (f :: toks) = some (b :: bs) := by
        simp [parseHexList, parseHex2_iff_ghexbyte.mpr hb, htoks]
      have hlen : toks.length = bs.length := by simpa using congrArg List.length (parseHexList_eq_some htoks false)
      rw [← joinWith_eq_append_flatMap, splitComma_joinWith (by simp) (comma_not_mem_of_parseHexList hlist)]
      simp [parsePayload, hlist, hlen]
  · intro h
    have hjoin := joinWith_splitComma l
    unfold parsePayload at h
    split_ifs at h with hzero hempty hlen
    · rw [hempty] at hjoin
      exact .inl ⟨hjoin.symm, List.eq_nil_of_length_eq_zero hzero⟩
    · obtain ⟨f, toks, hcons⟩ := List.exists_cons_of_ne_nil (splitComma_ne_nil l)
      rw [hcons, joinWith_eq_append_flatMap] at hjoin
      rw [hcons, parseHexList] at h
      split at h
      next b bs hb hbs =>
        obtain rfl := Option.some.inj h
        exact .inr ⟨f, _, b, bs, hjoin.symm, rfl, parseHex2_iff_ghexbyte.mp hb, ghexrest_iff.mpr ⟨toks, rfl, hbs⟩⟩
      next => cases h

/-- Settles O55: `parse_dec` and `parse_ts` and their productions accept exactly the strings of the renderers, and
`parse_hex2` reads digit by digit. -/
theorem subParsersAcceptTheirProductions : Obligations.SubParsersAcceptTheirProductions :=
  ⟨fun _ _ _ => by rw [parseDec_eq_some, gdecnum_iff], fun _ _ => by rw [parseTs_eq_some, gts_iff],
    fun _ _ => parseHex2_iff_ghexbyte⟩

end Sys2Proof.Machine
end

section
/-! Proofs that PARSE accepts exactly the lines of the grammar, and that FORMAT and PARSE are inverse to each other up
to the case of hex letters (R83, R85 to R87). -/

namespace Sys2Proof.Machine

/-! ### A line cut behind its first fields -/

theorem joinWith_append (sep : Byte) (fs : List (List Byte)) {gs : List (List Byte)} (h : gs ≠ []) :
    joinWith sep (fs ++ gs) = fs.flatMap (· ++ [sep]) ++ joinWith sep gs := by
  induction fs with
  | nil => rfl
  | cons f fs ih =>
    rw [List.cons_append, joinWith_cons (by simp [h]), ih, List.flatMap_cons]
    simp

/-- A line begins with the fields `fs` exactly if it is these, each closed by a comma, and a rest with the other
fields. -/
theorem splitComma_eq_append_iff {fs toks : List (List Byte)} {l : List Byte} (hfs : ∀ f ∈ fs, chComma ∉ f)
    (htoks : toks ≠ []) :
    splitComma l = fs ++ toks ↔ ∃ r, l = fs.flatMap (· ++ [chComma]) ++ r ∧ splitComma r = toks := by
  constructor
  · intro h
    have hcomma : ∀ f ∈ toks, chComma ∉ f := fun f hf => splitComma_no_comma (h ▸ List.mem_append_right fs hf)
    refine ⟨joinWith chComma toks, ?_, splitComma_joinWith htoks hcomma⟩
    rw [← joinWith_append _ _ htoks, ← h, joinWith_splitComma]
  · rintro ⟨r, rfl, rfl⟩
    have hcomma : ∀ f ∈ fs ++ splitComma r, chComma ∉ f :=
      List.forall_mem_append.mpr ⟨hfs, fun _ => splitComma_no_comma⟩
    calc splitComma (fs.flatMap (· ++ [chComma]) ++ r)
        = splitComma (joinWith chComma (fs ++ splitComma r)) := by rw [joinWith_append _ _ htoks, joinWith_splitComma]
      _ = fs ++ splitComma r := splitComma_joinWith (by simp [htoks]) hcomma

/-! ### The first six fields -/

/-- The fields of a line before its hex list (R48). -/
def headFields (x : LineFields) : List (List Byte) :=
  [renderTs x.ts, dec 2, dec x.pgn.toNat, dec x.src.toNat, dec x.dst.toNat, dec x.payload.length]

theorem lineFields_eq (u : Bool) (x : LineFields) : lineFields u x = headFields x ++ hexFields u x.payload := rfl

theorem forall_mem_headFields {x : LineFields} {P : List Byte → Prop} (hts : P (renderTs x.ts))
    (hdec : ∀ n, P (dec n)) : ∀ f ∈ headFields x, P f := by
  simp [headFields, hts, hdec]

theorem comma_not_mem_headFields {x : LineFields} : ∀ f ∈ headFields x, chComma ∉ f :=
  forall_mem_headFields (comma_not_mem_renderTs x.ts) comma_not_mem_dec

/-- The first six fields hold no hex letter: their characters are in the alphabet of both cases (R33). -/
theorem lineChar_of_mem_headFields {x : LineFields} : ∀ f ∈ headFields x, ∀ c ∈ f, ∀ u, lineChar u c = true :=
  forall_mem_headFields (fun c hc u => forall_lineChar_renderTs u x.ts c hc) (fun _ _ hc u => lineChar_of_mem_dec u hc)

/-! ### What PARSE and the grammar accept -/

theorem parsePayload_nil (n : Nat) : parsePayload n [] = none := by
  cases n <;> rfl

/-- PARSE accepts a line exactly if it begins with the six spelled fields and the tokens behind them spell the payload
(R83). -/
theorem parseLine_iff {l : List Byte} {x : LineFields} :
    parseLine l = some x ↔ x.payload.length ≤ 255 ∧
      ∃ toks, splitComma l = headFields x ++ toks ∧ parsePayload x.payload.length toks = some x.payload := by
  constructor
  · intro h
    obtain ⟨toks, hsplit, hpayload, hlen⟩ := parseLine_eq_some h
    exact ⟨hlen, toks, hsplit, hpayload⟩
  · rintro ⟨hlen, toks, hsplit, hpayload⟩
    have hpgn : parseDec (dec x.pgn.toNat) 4294967295 = some x.pgn.toNat :=
      parseDec_eq_some.mpr ⟨rfl, by have := x.pgn.isLt; omega⟩
    have hbyte : ∀ b : Byte, parseDec (dec b.toNat) 255 = some b.toNat :=
      fun b => parseDec_eq_some.mpr ⟨rfl, by have := b.isLt; omega⟩
    have hcount : parseDec (dec x.payload.length) 255 = some x.payload.length := parseDec_eq_some.mpr ⟨rfl, hlen⟩
    cases toks with
    | nil => simp [parsePayload_nil] at hpayload
    | cons tok toks =>
      simp [parseLine, hsplit, headFields, Config.priority, parseTs_renderTs, hpgn, hbyte, hcount, hpayload]

/-- The grammar derives a line exactly if it is the six spelled fields, each closed by a comma, and a hex list of the
payload (R47). -/
theorem gline_iff_headFields {l : List Byte} {x : LineFields} :
    GLine l x ↔ x.payload.length ≤ 255 ∧
      ∃ r, l = (headFields x).flatMap (· ++ [chComma]) ++ r ∧ GHexlist r x.payload := by
  constructor
  · rintro ⟨ts, pgn, src, dst, plen, r, rfl, hts, hpgn, hsrc, hdst, hplen, hlen, hr⟩
    refine ⟨hlen, r, ?_, hr⟩
    rw [gts_iff.mp hts, gdecnum_iff.mp hpgn, gdecnum_iff.mp hsrc, gdecnum_iff.mp hdst, gdecnum_iff.mp hplen]
    simp [headFields, dec_priority, chComma]
  · rintro ⟨hlen, r, rfl, hr⟩
    refine ⟨renderTs x.ts, dec x.pgn.toNat, dec x.src.toNat, dec x.dst.toNat, dec x.payload.length, r, ?_,
      gts_renderTs _, gdecnum_dec _, gdecnum_dec _, gdecnum_dec _, gdecnum_dec _, hlen, hr⟩
    simp [headFields, dec_priority, chComma]

/-- PARSE accepts exactly the lines the grammar derives, with the fields they spell (R83). -/
theorem gline_iff_parseLine {l : List Byte} {x : LineFields} : GLine l x ↔ parseLine l = some x := by
  rw [gline_iff_headFields, parseLine_iff]
  refine and_congr_right fun _ => ⟨?_, ?_⟩
  · rintro ⟨r, hl, hr⟩
    exact ⟨splitComma r, (splitComma_eq_append_iff comma_not_mem_headFields (splitComma_ne_nil r)).mpr ⟨r, hl, rfl⟩,
      ghexlist_iff.mp hr⟩
  · rintro ⟨toks, hsplit, hpayload⟩
    have htoks : toks ≠ [] := by
      rintro rfl
      simp [parsePayload_nil] at hpayload
    obtain ⟨r, hl, rfl⟩ := (splitComma_eq_append_iff comma_not_mem_headFields htoks).mp hsplit
    exact ⟨r, hl, ghexlist_iff.mpr hpayload⟩

/-! ### The case of hex letters -/

theorem hexCase_hexCase (v u : Bool) (c : Byte) : hexCase v (hexCase u c) = hexCase v c := by
  revert v u c
  decide +kernel

/-- Every character is already in one of the two cases. -/
theorem exists_hexCase_self (c : Byte) : ∃ u, hexCase u c = c := by
  revert c
  decide +kernel

/-- The alphabet of FORMAT under a setting of HEX_UPPER is in the case of that setting (R33). -/
theorem hexCase_of_lineChar {u : Bool} {c : Byte} (h : lineChar u c = true) : hexCase u c = c := by
  revert u c
  decide +kernel

/-- A character in the alphabet of both cases is no hex letter, and changing the case makes no other into it. -/
theorem hexCase_eq_iff {c d : Byte} (hd : ∀ v, lineChar v d = true) (u : Bool) : hexCase u c = d ↔ c = d := by
  constructor
  · rintro rfl
    obtain ⟨v, hv⟩ := exists_hexCase_self c
    calc c = hexCase v (hexCase u c) := by rw [hexCase_hexCase, hv]
      _ = hexCase u c := hexCase_of_lineChar (hd v)
  · rintro rfl
    exact hexCase_of_lineChar (hd u)

theorem map_hexCase_eq_iff {f g : List Byte} (hg : ∀ c ∈ g, ∀ v, lineChar v c = true) (u : Bool) :
    f.map (hexCase u) = g ↔ f = g := by
  induction g generalizing f with
  | nil => simp
  | cons d g ih =>
    obtain ⟨hd, hg⟩ := List.forall_mem_cons.mp hg
    cases f with
    | nil => simp
    | cons c f => simp [hexCase_eq_iff hd u, ih hg]

theorem map_map_hexCase_eq_iff {fs gs : List (List Byte)} (hgs : ∀ g ∈ gs, ∀ c ∈ g, ∀ v, lineChar v c = true)
    (u : Bool) : fs.map (List.map (hexCase u)) = gs ↔ fs = gs := by
  induction gs generalizing fs with
  | nil => simp
  | cons g gs ih =>
    obtain ⟨hg, hgs⟩ := List.forall_mem_cons.mp hgs
    cases fs with
    | nil => simp
    | cons f fs => simp [map_hexCase_eq_iff hg u, ih hgs]

theorem map_hexCase_headFields (u : Bool) (x : LineFields) : (headFields x).map (List.map (hexCase u)) = headFields x :=
  (map_map_hexCase_eq_iff lineChar_of_mem_headFields u).mpr rfl

theorem splitComma_map_hexCase (u : Bool) (l : List Byte) :
    splitComma (l.map (hexCase u)) = (splitComma l).map (List.map (hexCase u)) := by
  induction l with
  | nil => rfl
  | cons c l ih =>
    simp only [List.map_cons, splitComma, hexCase_eq_iff lineChar_comma u, ih]
    split
    · rfl
    · cases splitComma l <;> rfl

theorem hexVal_hexCase (u : Bool) (c : Byte) : hexVal (hexCase u c) = hexVal c := by
  revert u c
  decide +kernel

theorem parseHex2_map_hexCase (u : Bool) (f : List Byte) : parseHex2 (f.map (hexCase u)) = parseHex2 f := by
  match f with
  | [] | [_] | _ :: _ :: _ :: _ => rfl
  | [h, l] => simp only [List.map_cons, List.map_nil, parseHex2, hexVal_hexCase]

theorem parseHexList_map_hexCase (u : Bool) (toks : List (List Byte)) :
    parseHexList (toks.map (List.map (hexCase u))) = parseHexList toks := by
  induction toks with
  | nil => rfl
  | cons f toks ih => simp only [List.map_cons, parseHexList, parseHex2_map_hexCase, ih]

theorem parsePayload_map_hexCase (u : Bool) (n : Nat) (toks : List (List Byte)) :
    parsePayload n (toks.map (List.map (hexCase u))) = parsePayload n toks := by
  have hempty : toks.map (List.map (hexCase u)) = [[]] ↔ toks = [[]] := map_map_hexCase_eq_iff (by simp) u
  simp only [parsePayload, hempty, List.length_map, parseHexList_map_hexCase]

/-- PARSE does not see the case of hex letters (R83, R84). -/
theorem parseLine_map_hexCase (u : Bool) (l : List Byte) : parseLine (l.map (hexCase u)) = parseLine l := by
  ext x
  rw [parseLine_iff, parseLine_iff, splitComma_map_hexCase]
  refine and_congr_right fun _ => ⟨?_, ?_⟩
  · rintro ⟨toks, hsplit, hpayload⟩
    obtain ⟨fs, gs, hcut, hfs, rfl⟩ := List.map_eq_append_iff.mp hsplit
    rw [map_map_hexCase_eq_iff lineChar_of_mem_headFields] at hfs
    rw [parsePayload_map_hexCase] at hpayload
    exact ⟨gs, hfs ▸ hcut, hpayload⟩
  · rintro ⟨toks, hsplit, hpayload⟩
    refine ⟨toks.map (List.map (hexCase u)), ?_, by rwa [parsePayload_map_hexCase]⟩
    rw [hsplit, List.map_append, map_hexCase_headFields]

/-- A line PARSE accepts is the rendering of its fields, up to the case of hex letters (R86). -/
theorem map_hexCase_of_parseLine {l : List Byte} {x : LineFields} (h : parseLine l = some x) (u : Bool) :
    l.map (hexCase u) = renderLine u x.pgn x.payload x.src x.dst x.ts := by
  obtain ⟨-, toks, hsplit, hpayload⟩ := parseLine_iff.mp h
  have hfields : splitComma (l.map (hexCase u)) = lineFields u x := by
    rw [splitComma_map_hexCase, hsplit, List.map_append, map_hexCase_headFields, (parsePayload_eq_some hpayload u).2,
      lineFields_eq]
  rw [renderLine_eq_join, ← hfields, joinWith_splitComma]

/-! ### The answers of PARSE -/

theorem answers_parsed_iff {s : State} {l : List Byte} {x : LineFields} :
    Answers (.parse l) s (.parsed x) ↔ Populated s ∧ parseLine l = some x := by
  have hop : isOperation (.parse l) = true := rfl
  rw [answers_iff]
  cases h : parseLine l <;> simp [hop, answerOf, h, eq_comm]

theorem answers_parse_fault_iff {s : State} {l : List Byte} {f : FaultName} :
    Answers (.parse l) s (.fault f) ↔ Populated s ∧ parseLine l = none ∧ f = .malformedLine := by
  have hop : isOperation (.parse l) = true := rfl
  rw [answers_iff]
  cases h : parseLine l <;> simp [hop, answerOf, h]

/-! ### The obligations -/

/-- Settles O50: PARSE cuts a rendered line into the fields it was joined of and reads each back. -/
theorem parseAfterFormat : Obligations.ParseAfterFormat := by
  intro s s' g p a d ts hs hs' hp
  exact ⟨_, answers_format_iff.mpr ⟨hs, hp, rfl⟩,
    answers_parsed_iff.mpr ⟨hs', parseLine_renderLine s.hexUpper ⟨ts, g, a, effectiveDst d, p⟩ hp⟩⟩

/-- Settles O51: an accepted line is the rendering of its fields but for the case of hex letters. -/
theorem formatAfterParse : Obligations.FormatAfterParse := by
  intro s s' l x hs' h
  obtain ⟨-, hparse⟩ := answers_parsed_iff.mp h
  exact answers_format_iff.mpr ⟨hs', (parseLine_iff.mp hparse).1, map_hexCase_of_parseLine hparse s'.hexUpper⟩

/-- Settles O52: PARSE and the grammar ask the same of the comma-separated fields, and the only other answer of PARSE is
MalformedLine. -/
theorem parseAcceptsExactlyTheGrammar : Obligations.ParseAcceptsExactlyTheGrammar := by
  intro s l hs
  refine ⟨fun x => by rw [gline_iff_parseLine, answers_parsed_iff, and_iff_right hs], fun hnone => ?_⟩
  have hparse : parseLine l = none :=
    Option.eq_none_iff_forall_ne_some.mpr fun x h => hnone x (gline_iff_parseLine.mpr h)
  exact answers_parse_fault_iff.mpr ⟨hs, hparse, rfl⟩

/-- Settles O53: PARSE does not see the case of hex letters, and in lower case an accepted line is a rendered one. -/
theorem parseAcceptsExactlyFormatsLines : Obligations.ParseAcceptsExactlyFormatsLines := by
  intro s s' l hs hs' hlower
  have hcase : l.map lowerHex = l.map (hexCase false) := rfl
  constructor
  · rintro ⟨x, h⟩
    obtain ⟨-, hparse⟩ := answers_parsed_iff.mp h
    refine ⟨x.pgn, x.payload, x.src, some x.dst, x.ts, ?_⟩
    rw [answers_format_iff, hlower, hcase]
    exact ⟨hs', (parseLine_iff.mp hparse).1, map_hexCase_of_parseLine hparse false⟩
  · rintro ⟨g, p, a, d, ts, h⟩
    obtain ⟨-, hp, hl⟩ := answers_format_iff.mp h
    refine ⟨⟨ts, g, a, effectiveDst d, p⟩, answers_parsed_iff.mpr ⟨hs, ?_⟩⟩
    rw [← parseLine_map_hexCase false l, ← hcase, hl]
    exact parseLine_renderLine s'.hexUpper ⟨ts, g, a, effectiveDst d, p⟩ hp

/-- Settles O54: PARSE reads the operands back from the line, so equal lines have equal operands. -/
theorem formatIsInjective : Obligations.FormatIsInjective := by
  intro s g g' p p' a a' d d' ts ts' l l' h h'
  obtain ⟨-, hp, rfl⟩ := answers_format_iff.mp h
  obtain ⟨-, hp', rfl⟩ := answers_format_iff.mp h'
  constructor
  · intro heq
    have hback := parseLine_renderLine s.hexUpper ⟨ts, g, a, effectiveDst d, p⟩ hp
    rw [heq, parseLine_renderLine s.hexUpper ⟨ts', g', a', effectiveDst d', p'⟩ hp'] at hback
    obtain ⟨hts, hg, ha, hd, hpayload⟩ := LineFields.mk.inj (Option.some.inj hback)
    exact ⟨hts.symm, hg.symm, ha.symm, hpayload.symm, hd.symm⟩
  · rintro ⟨rfl, rfl, rfl, rfl, hd⟩
    rw [show effectiveDst d = effectiveDst d' from hd]

end Sys2Proof.Machine
end

section
/-! Proofs about what FORMAT prints: the spelling of numbers and bytes (R74 to R76), the template of the line (R77,
R78), and its length and commas (R80). -/

namespace Sys2Proof.Machine

/-! ### Decimal and hex spellings -/

/-- Settles O42: the characters of `pad` by position. -/
theorem padSpellsDigits : Obligations.PadSpellsDigits :=
  fun n w _ => ⟨pad_length n w, fun _ => pad_getElem?, rfl, rfl⟩

/-- Settles O43: `decWidth` finds the least width. -/
theorem decIsTheShortestSpelling : Obligations.DecIsTheShortestSpelling := by
  refine ⟨fun n => ?_, rfl, rfl, rfl, rfl⟩
  obtain ⟨hpos, hlt, hleast⟩ := decWidth_spec n
  exact ⟨decWidth n, hpos, hlt, hleast, rfl⟩

theorem toNat_hexDigit_of_le (u : Bool) {d : Nat} (h : d ≤ 9) : (hexDigit u d).toNat = 0x30 + d := by
  rw [hexDigit, if_pos h, BitVec.toNat_ofNat]
  omega

theorem toNat_hexDigit_letter (u : Bool) {d : Nat} (h : 10 ≤ d) (h' : d ≤ 15) :
    (hexDigit u d).toNat = (if u then 0x41 else 0x61) + (d - 10) := by
  rw [hexDigit, if_neg (by omega)]
  cases u with
  | false =>
    simp only [Bool.false_eq_true, if_false, BitVec.toNat_ofNat]
    omega
  | true =>
    simp only [if_true, BitVec.toNat_ofNat]
    omega

/-- Settles O44: both digits of a token are below 16, and a step keeps the static inputs. -/
theorem hexTokenSpelling : Obligations.HexTokenSpelling := by
  refine ⟨by decide, rfl, rfl, fun s t h => (step_keeps_inputs h).2.1, fun u b => ⟨_, _, rfl, ?_⟩⟩
  have hb := b.isLt
  have hdigit : ∀ d ≤ 15, (d ≤ 9 → (hexDigit u d).toNat = 0x30 + d) ∧
      (10 ≤ d → u = false → (hexDigit u d).toNat = 0x61 + (d - 10)) ∧
      (10 ≤ d → u = true → (hexDigit u d).toNat = 0x41 + (d - 10)) := by
    refine fun d hd => ⟨toNat_hexDigit_of_le u, ?_, ?_⟩
    · rintro h rfl
      exact toNat_hexDigit_letter false h hd
    · rintro h rfl
      exact toNat_hexDigit_letter true h hd
  rintro c d (⟨rfl, rfl⟩ | ⟨rfl, rfl⟩)
  · exact hdigit _ (by omega)
  · exact hdigit _ (by omega)

/-! ### The template -/

/-- FORMAT faults exactly above 255 bytes, by the one name (R77, R106). -/
theorem answers_format_fault_iff {s : State} {g : BitVec 32} {p : List Byte} {a : Byte} {d : Option Byte}
    {ts : Timestamp} {f : FaultName} :
    Answers (.format g p a d ts) s (.fault f) ↔ Populated s ∧ 255 < p.length ∧ f = .invalidPayloadLength := by
  have hop : isOperation (.format g p a d ts) = true := rfl
  rw [answers_iff]
  by_cases hp : 255 < p.length
  · simp [hop, hp, answerOf, formatLine, Config.maxPayloadLen]
  · simp [hp, answerOf, formatLine, Config.maxPayloadLen]

/-- Settles O41: the rendered line is the template, and it fits the length pins. -/
theorem formatPrintsItsTemplate : Obligations.FormatPrintsItsTemplate := by
  intro s g p a d ts hs
  refine ⟨fun hp => answers_format_fault_iff.mpr ⟨hs, hp, rfl⟩, fun hp =>
    ⟨renderLine s.hexUpper g p a (effectiveDst d) ts, ?_, answers_format_iff.mpr ⟨hs, hp, rfl⟩, ?_, rfl⟩⟩
  · simp [renderLine, Config.priority, dec_priority, chComma, effectiveDst]
  · obtain ⟨-, hmax⟩ := length_renderLine_bounds s.hexUpper g hp a (effectiveDst d) ts
    exact toNat_ofNat_length (by omega)

/-- FORMAT does not tell an absent destination from the broadcast value (R78). -/
theorem exec_format_broadcast (g : BitVec 32) (p : List Byte) (a : Byte) (ts : Timestamp) (s : State) :
    exec (.format g p a none ts) s = exec (.format g p a (some 255) ts) s := rfl

/-- Settles O48: the two records are rejected for the same reason, or run the same FORMAT. -/
theorem destinationDefaultsToBroadcast : Obligations.DestinationDefaultsToBroadcast := by
  intro s r rest hop hdst
  by_cases hs : Populated s
  · have hnone : readDst r = none := by simp [readDst, hdst]
    have hpayload : readPayload { r with dstPresent := true, dst := 255 } = readPayload r := rfl
    rw [step_request (s := { s with requests := .request r :: rest }) hs rfl,
      step_request (s := { s with requests := .request { r with dstPresent := true, dst := 255 } :: rest }) hs rfl,
      decode_request_format hop, decode_request_format (r := { r with dstPresent := true, dst := 255 }) hop, hnone,
      hpayload]
    cases readPayload r with
    | error e => rfl
    | ok p =>
      cases readTs r.ts with
      | none => rfl
      | some t => exact exec_format_broadcast r.pgn p r.src t _
  · have hrefused : ∀ ws, step { s with requests := ws } = .refused .dataModelNotPopulated :=
      fun _ => step_of_not_populated hs
    rw [hrefused, hrefused]

/-! ### Length and commas -/

theorem length_splitComma (l : List Byte) : (splitComma l).length = l.count chComma + 1 := by
  induction l with
  | nil => rfl
  | cons c l ih =>
    by_cases hc : c = chComma
    · simp [splitComma, hc, ih]
    · obtain ⟨f, fs, hcut⟩ := List.exists_cons_of_ne_nil (splitComma_ne_nil l)
      rw [List.count_cons_of_ne hc, ← ih]
      simp [splitComma, hc, hcut, consFirst]

theorem length_hexFields (u : Bool) (p : List Byte) : (hexFields u p).length = 1 + (p.length - 1) := by
  cases p with
  | nil => rfl
  | cons b bs => simp [hexFields, Nat.add_comm]

/-- A rendered line has a comma behind each of its first six fields and one between each two tokens (R80). -/
theorem count_comma_renderLine (u : Bool) (x : LineFields) :
    (renderLine u x.pgn x.payload x.src x.dst x.ts).count chComma = 6 + (x.payload.length - 1) := by
  have h := length_splitComma (renderLine u x.pgn x.payload x.src x.dst x.ts)
  rw [splitComma_renderLine, lineFields_eq, List.length_append, length_hexFields] at h
  have hhead : (headFields x).length = 6 := rfl
  omega

/-- Settles O46: the lengths and commas of the rendered line, and its alphabet, which holds none of the four
characters. -/
theorem lineLengthAndCommas : Obligations.LineLengthAndCommas := by
  intro s g p a d ts l h
  obtain ⟨-, hp, rfl⟩ := answers_format_iff.mp h
  obtain ⟨hmin, hmax⟩ := length_renderLine_bounds s.hexUpper g hp a (effectiveDst d) ts
  have habsent : ∀ c, lineChar s.hexUpper c = false → c ∉ renderLine s.hexUpper g p a (effectiveDst d) ts := by
    intro c hc hmem
    rw [lineChar_of_mem_renderLine (x := ⟨ts, g, a, effectiveDst d, p⟩) hmem] at hc
    cases hc
  have hforbidden : ∀ u, lineChar u 0x20 = false ∧ lineChar u 0x0D = false ∧ lineChar u 0x0A = false ∧
      lineChar u 0x00 = false := by decide
  obtain ⟨hspace, hcr, hlf, hzero⟩ := hforbidden s.hexUpper
  exact ⟨length_renderLine .., hmin, hmax, count_comma_renderLine s.hexUpper ⟨ts, g, a, effectiveDst d, p⟩,
    habsent _ hspace, habsent _ hcr, habsent _ hlf, habsent _ hzero⟩

end Sys2Proof.Machine
end

section
/-! Proofs about the host's contract (42_bridge_contract): the two paths of the Bridge by the outcome of the codec,
the channels of a state after a change, and the store after a write (R89 to R99). -/

namespace Sys2Proof.Machine

/-! ### The inbound path -/

section
variable {stamp : Timestamp} {msg : BusMessage}

theorem inbound_of_not_accepted (h : bridgeAccepts msg = false) : inbound stamp msg = .ignored := by
  simp [inbound, h]

theorem inbound_of_decode_error {f : FaultName} (h : bridgeAccepts msg = true)
    (hdecode : decodeFrame msg.raw = .error f) : inbound stamp msg = .dropped f := by
  simp [inbound, h, hdecode]

theorem inbound_of_decode_ok {m : ModuleState} (h : bridgeAccepts msg = true) (hdecode : decodeFrame msg.raw = .ok m) :
    inbound stamp msg = .published (publish stamp m) := by
  simp [inbound, h, hdecode]

end

/-- The ten listed channels are all there are (R90). -/
theorem mem_allChannels (c : Channel) : c ∈ allChannels := by
  cases c with
  | dimmer k => fin_cases k <;> decide
  | switch i => fin_cases i <;> decide

/-- Settles O56: the three branches of the inbound path, the last with one update per listed channel. -/
theorem inboundPublishesTenChannelsOrNothing : Obligations.InboundPublishesTenChannelsOrNothing := by
  intro stamp msg s _
  refine ⟨inbound_of_not_accepted, fun hacc f h => ?_, fun hacc m h => ?_⟩
  · obtain ⟨-, hdecode⟩ := answers_decode_fault_iff.mp h
    exact inbound_of_decode_error hacc hdecode
  · obtain ⟨-, hdecode⟩ := answers_decoded_iff.mp h
    exact ⟨publish stamp m, inbound_of_decode_ok hacc hdecode, rfl,
      fun c => List.mem_map.mpr ⟨c, mem_allChannels c, rfl⟩⟩

/-! ### The channels of a state after a change -/

theorem levelOf_setLevel (m : ModuleState) (k j : Fin 2) (v : Int) :
    levelOf (setLevel m k v) j = if j = k then v else levelOf m j := by
  fin_cases k <;> fin_cases j <;> rfl

theorem sw_setLevel (m : ModuleState) (k : Fin 2) (v : Int) : (setLevel m k v).sw = m.sw := by
  unfold setLevel
  split_ifs <;> rfl

theorem channelValue_with_swSet (m : ModuleState) (i : Fin 8) (on : Bool) (c : Channel) :
    channelValue { m with sw := swSet m.sw i on } c = if c = .switch i then .onOff on else channelValue m c := by
  cases c with
  | dimmer k => rfl
  | switch j => simp only [channelValue, swGet_swSet, Channel.switch.injEq, apply_ite ChannelValue.onOff]

theorem channelValue_setLevel (m : ModuleState) (k : Fin 2) (v : Int) (c : Channel) :
    channelValue (setLevel m k v) c = if c = .dimmer k then .ratio (ratioOfLevel v) else channelValue m c := by
  cases c with
  | dimmer j =>
    simp only [channelValue, levelOf_setLevel, Channel.dimmer.injEq, apply_ite ratioOfLevel,
      apply_ite ChannelValue.ratio]
  | switch i => simp [channelValue, sw_setLevel]

/-- Settles O58: a merge sets one switch, or one level to that of the ratio or of the hundredth of the percentage. -/
theorem oneChannelChangeKeepsTheOtherNine : Obligations.OneChannelChangeKeepsTheOtherNine :=
  fun m c => ⟨fun i on => channelValue_with_swSet m i on c, fun k q => channelValue_setLevel m k (levelOfRatio q) c,
    fun k q => channelValue_setLevel m k (levelOfRatio (q / 100)) c⟩

/-! ### The store -/

/-- A state just stored is the one read back (R96). -/
theorem storeGet_storeSet_self (k : Int) (m : ModuleState) (store : Store) :
    storeGet k (storeSet k m store) = some m := by
  induction store with
  | nil => simp [storeSet, storeGet]
  | cons entry rest ih =>
    obtain ⟨j, n⟩ := entry
    by_cases hlt : k < j
    · simp [storeSet, storeGet, hlt]
    · by_cases heq : k = j
      · simp [storeSet, storeGet, heq]
      · simp [storeSet, storeGet, hlt, heq, ih]

/-! ### The outbound path -/

theorem formatLine_of_length_le {u : Bool} {g : BitVec 32} {p : List Byte} {a : Byte} {d : Option Byte} {ts : Timestamp}
    (h : p.length ≤ 255) : formatLine u g p a d ts = .ok (renderLine u g p a (effectiveDst d) ts) :=
  if_neg (Nat.not_lt.mpr h)

/-- An encoded frame is short enough for FORMAT (R64, R106). -/
theorem length_le_of_encodeFrame_ok {m : ModuleState} {p : List Byte} (h : encodeFrame m = .ok p) :
    p.length ≤ 255 := by
  have hlen := length_of_decodeFrame_ok (decodeFrame_of_encodeFrame h)
  omega

section
variable {upper : Bool} {policy : DefaultPolicy} {src : Byte} {ts : Timestamp} {store : Store} {c : Command}

theorem priorState_of_unknown_of_reject {inst : Int} (h : storeGet inst store = none) (hpolicy : policy = .reject) :
    priorState policy store inst = none := by
  simp [priorState, h, hpolicy]

theorem outbound_of_no_priorState (h : priorState policy store c.inst = none) :
    outbound upper policy src ts store c = .rejected .unknownInstance := by
  simp [outbound, h]

theorem outbound_of_encode_error {m : ModuleState} {f : FaultName} (h : priorState policy store c.inst = some m)
    (hencode : encodeFrame (mergeChange m c.change) = .error f) :
    outbound upper policy src ts store c = .rejected f := by
  simp [outbound, h, hencode]

/-- Once ENCODE succeeds the line is emitted: FORMAT cannot reject the frame (R94). -/
theorem outbound_of_encode_ok {m : ModuleState} {p : List Byte} (h : priorState policy store c.inst = some m)
    (hencode : encodeFrame (mergeChange m c.change) = .ok p) :
    outbound upper policy src ts store c =
      .emitted (renderLine upper Config.empirbusPgn p src Config.broadcast ts)
        (storeSet c.inst (mergeChange m c.change) store) := by
  have hlen := length_le_of_encodeFrame_ok hencode
  simp [outbound, h, hencode, formatLine_of_length_le hlen, effectiveDst]

end

/-- Settles O57: by what the command starts from and what ENCODE makes of the merged state; PARSE and DECODE invert the
FORMAT and the ENCODE of an emitted line. -/
theorem outboundEmitsTheWholeStateOrNothing : Obligations.OutboundEmitsTheWholeStateOrNothing := by
  intro upper policy src ts store c s hs
  refine ⟨fun hunknown hpolicy => outbound_of_no_priorState (priorState_of_unknown_of_reject hunknown hpolicy),
    fun m hprior => ⟨fun hwf => ?emits, fun hnwf => ?rejects⟩⟩
  case emits =>
    have hencode := encodeFrame_ok hwf
    have hlen := length_le_of_encodeFrame_ok hencode
    exact ⟨_, _, _, outbound_of_encode_ok hprior hencode, storeGet_storeSet_self _ _ _,
      answers_parsed_iff.mpr ⟨hs, parseLine_renderLine upper ⟨ts, 65280, src, 255, _⟩ hlen⟩,
      answers_decoded_iff.mpr ⟨hs, decodeFrame_of_encodeFrame hencode⟩⟩
  case rejects =>
    cases hencode : encodeFrame (mergeChange m c.change) with
    | ok p => exact absurd (encodeFrame_eq_ok hencode).1 hnwf
    | error f => exact ⟨f, outbound_of_encode_error hprior hencode, encodeFrame_error hencode⟩

end Sys2Proof.Machine
end

section
/-! Proofs about faults: each is raised by its own operations for its own reason and by nothing else (R103 to R107,
R109), none leaves a mark (R111), and a bare frame word stops by name (R116, R55). -/

namespace Sys2Proof.Machine

/-! ### The faults and their causes -/

/-- The whole list of what makes a request fault, and with which name (R103 to R107). A dimmer out of range counts only
beside a module number in range, which is tested first (R109, decision D7). -/
inductive Raises : Instr → FaultName → Prop
  | decode_malformedFrame {p : List Byte} (hlen : p.length ≠ 8) : Raises (.decode p) .malformedFrame
  | decode_outOfRangeInstance {b0 b1 b2 b3 b4 b5 b6 b7 : Byte} (hinst : 49 < b2.toNat) :
      Raises (.decode [b0, b1, b2, b3, b4, b5, b6, b7]) .outOfRangeInstance
  | decode_outOfRangeDimmer {b0 b1 b2 b3 b4 b5 b6 b7 : Byte} (hinst : b2.toNat ≤ 49)
      (hlevel : 1000 < b3.toNat + 256 * b4.toNat ∨ 1000 < b5.toNat + 256 * b6.toNat) :
      Raises (.decode [b0, b1, b2, b3, b4, b5, b6, b7]) .outOfRangeDimmer
  | encode_outOfRangeInstance {v l0 l1 : Int} {sw : Switches} (hinst : v < 0 ∨ 49 < v) :
      Raises (.encode v l0 l1 sw) .outOfRangeInstance
  | encode_outOfRangeDimmer {v l0 l1 : Int} {sw : Switches} (hinst : 0 ≤ v ∧ v ≤ 49)
      (hlevel : l0 < 0 ∨ 1000 < l0 ∨ l1 < 0 ∨ 1000 < l1) : Raises (.encode v l0 l1 sw) .outOfRangeDimmer
  | format_invalidPayloadLength {g : BitVec 32} {p : List Byte} {a : Byte} {d : Option Byte} {ts : Timestamp}
      (hlen : 255 < p.length) : Raises (.format g p a d ts) .invalidPayloadLength
  | parse_malformedLine {l : List Byte} (hline : ∀ x : LineFields, ¬ GLine l x) : Raises (.parse l) .malformedLine

section
variable {f : FaultName}

theorem decodeFrame_eq_error_iff {p : List Byte} : decodeFrame p = .error f ↔ Raises (.decode p) f := by
  constructor
  · intro h
    by_cases hlen : p.length = 8
    · obtain ⟨b0, b1, b2, b3, b4, b5, b6, b7, rfl⟩ := eight_bytes hlen
      rw [decodeFrame_eight] at h
      split_ifs at h with hinst hlevel0 hlevel1 <;> cases h
      · exact .decode_outOfRangeInstance hinst
      · exact .decode_outOfRangeDimmer (Nat.le_of_not_lt hinst) (.inl hlevel0)
      · exact .decode_outOfRangeDimmer (Nat.le_of_not_lt hinst) (.inr hlevel1)
    · rw [decodeFrame_length hlen] at h
      cases h
      exact .decode_malformedFrame hlen
  · intro h
    cases h with
    | decode_malformedFrame hlen => exact decodeFrame_length hlen
    | decode_outOfRangeInstance hinst => rw [decodeFrame_eight, if_pos hinst]
    | decode_outOfRangeDimmer hinst hlevel =>
      rw [decodeFrame_eight, if_neg (Nat.not_lt.mpr hinst), ← ite_or, if_pos hlevel]

theorem encodeFrame_eq_error_iff {m : ModuleState} : encodeFrame m = .error f ↔ Raises (encodeOf m) f := by
  constructor
  · intro h
    by_cases hinst : m.inst < 0 ∨ 49 < m.inst
    · rw [encodeFrame_of_inst_outOfRange hinst] at h
      cases h
      exact .encode_outOfRangeInstance hinst
    have hinst' : 0 ≤ m.inst ∧ m.inst ≤ 49 := by omega
    by_cases hlevel : m.level0 < 0 ∨ 1000 < m.level0 ∨ m.level1 < 0 ∨ 1000 < m.level1
    · rw [encodeFrame_of_level_outOfRange hinst' hlevel] at h
      cases h
      exact .encode_outOfRangeDimmer hinst' hlevel
    · have hm : StateWellFormed m := by
        unfold StateWellFormed
        omega
      rw [encodeFrame_ok hm] at h
      cases h
  · intro h
    cases h with
    | encode_outOfRangeInstance hinst => exact encodeFrame_of_inst_outOfRange hinst
    | encode_outOfRangeDimmer hinst hlevel => exact encodeFrame_of_level_outOfRange hinst hlevel

theorem parseLine_eq_none_iff {l : List Byte} : parseLine l = none ↔ ∀ x : LineFields, ¬ GLine l x := by
  simp only [gline_iff_parseLine, Option.eq_none_iff_forall_ne_some, ne_eq]

/-- Under DATA_MODEL 2 a transaction faults exactly for the causes of the list. -/
theorem answers_fault_iff {i : Instr} {s : State} (hs : Populated s) : Answers i s (.fault f) ↔ Raises i f := by
  cases i with
  | decode p => rw [answers_decode_fault_iff, and_iff_right hs, decodeFrame_eq_error_iff]
  | encode v l0 l1 sw =>
    exact answers_encode_fault_iff.trans ((and_iff_right hs).trans (encodeFrame_eq_error_iff (m := ⟨v, l0, l1, sw⟩)))
  | format g p a d ts =>
    rw [answers_format_fault_iff, and_iff_right hs]
    constructor
    · rintro ⟨hlen, rfl⟩
      exact .format_invalidPayloadLength hlen
    · rintro ⟨⟩
      exact ⟨‹_›, rfl⟩
  | parse l =>
    rw [answers_parse_fault_iff, and_iff_right hs, parseLine_eq_none_iff]
    constructor
    · rintro ⟨hline, rfl⟩
      exact .parse_malformedLine hline
    · rintro ⟨⟩
      exact ⟨‹_›, rfl⟩
  | wf2 w =>
    constructor
    · intro h
      cases (answers_iff.mp h).1
    · rintro ⟨⟩

end

/-! ### A bare frame word on the port -/

theorem frameOfWord_eq_none {w : FrameWord} (h : w &&& 0xFFFF#64 ≠ 0x9930#64) : frameOfWord w = none := by
  simp [frameOfWord, matchesWf2, h]

/-- A bare word with canonical tags is read as the table's row WF2 (R46; log 3). -/
theorem decode_frame_of_match {w : FrameWord} (h : w &&& 0xFFFF#64 = 0x9930#64) :
    ∃ f, decode (.frame w) = .ok (.wf2 f) := by
  have hmatch : matchesWf2 w = true := decide_eq_true h
  simp [decode, frameOfWord, hmatch]

/-- A bare word with other tags is rejected by the decoder (R46; log 3). -/
theorem decode_frame_of_mismatch {w : FrameWord} (h : w &&& 0xFFFF#64 ≠ 0x9930#64) :
    decode (.frame w) = .error .frameTagMismatch := by
  simp [decode, frameOfWord_eq_none h]

/-! ### The obligations -/

/-- Settles O19: no transaction touches what a later response depends on, so neither does one that faults. -/
theorem faultsAreNotSticky : Obligations.FaultsAreNotSticky := by
  intro i s t f _ hnext j r
  obtain ⟨hmodel, hupper, -⟩ := execChangesOnlyTheResponsePort i s t hnext
  exact ⟨responseDependsOnRequestAndInputsAlone j t s r hmodel hupper,
    responseDependsOnRequestAndInputsAlone j s t r hmodel.symm hupper.symm⟩

/-- Settles O35: the list has one cause of MalformedFrame. -/
theorem malformedFrameExactlyForWrongLength : Obligations.MalformedFrameExactlyForWrongLength := by
  refine ⟨rfl, fun i s hs => (answers_fault_iff hs).trans ⟨fun h => ?_, ?_⟩⟩
  · cases h with
    | decode_malformedFrame hlen => exact ⟨_, rfl, hlen⟩
  · rintro ⟨p, rfl, hlen⟩
    exact .decode_malformedFrame hlen

/-- Settles O36: the list has two causes of OutOfRangeDimmer, one for each operation of the Frame Codec. -/
theorem outOfRangeDimmerExactly : Obligations.OutOfRangeDimmerExactly := by
  refine ⟨rfl, fun i s hs => (answers_fault_iff hs).trans ⟨fun h => ?_, ?_⟩⟩
  · cases h with
    | decode_outOfRangeDimmer hinst hlevel => exact .inl ⟨_, _, _, _, _, _, _, _, rfl, hinst, hlevel⟩
    | encode_outOfRangeDimmer hinst hlevel => exact .inr ⟨_, _, _, _, rfl, hinst.1, hinst.2, hlevel⟩
  · rintro (⟨b0, b1, b2, b3, b4, b5, b6, b7, rfl, hinst, hlevel⟩ | ⟨v, l0, l1, sw, rfl, hlo, hhi, hlevel⟩)
    · exact .decode_outOfRangeDimmer hinst hlevel
    · exact .encode_outOfRangeDimmer ⟨hlo, hhi⟩ hlevel

/-- Settles O37: the list has two causes of OutOfRangeInstance, one for each operation of the Frame Codec. -/
theorem outOfRangeInstanceExactly : Obligations.OutOfRangeInstanceExactly := by
  refine ⟨rfl, fun i s hs => (answers_fault_iff hs).trans ⟨fun h => ?_, ?_⟩⟩
  · cases h with
    | decode_outOfRangeInstance hinst => exact .inl ⟨_, _, _, _, _, _, _, _, rfl, hinst⟩
    | encode_outOfRangeInstance hinst => exact .inr ⟨_, _, _, _, rfl, hinst⟩
  · rintro (⟨b0, b1, b2, b3, b4, b5, b6, b7, rfl, hinst⟩ | ⟨v, l0, l1, sw, rfl, hinst⟩)
    · exact .decode_outOfRangeInstance hinst
    · exact .encode_outOfRangeInstance hinst

/-- Settles O38: the list has one cause of InvalidPayloadLength. -/
theorem invalidPayloadLengthExactly : Obligations.InvalidPayloadLengthExactly := by
  refine ⟨rfl, fun i s hs => (answers_fault_iff hs).trans ⟨fun h => ?_, ?_⟩⟩
  · cases h with
    | format_invalidPayloadLength hlen => exact ⟨_, _, _, _, _, rfl, hlen⟩
  · rintro ⟨g, p, a, d, ts, rfl, hlen⟩
    exact .format_invalidPayloadLength hlen

/-- Settles O39: the list has no cause of UnknownInstance and one of MalformedLine, and names no other fault. -/
theorem malformedLineExactlyOutsideTheGrammar : Obligations.MalformedLineExactlyOutsideTheGrammar := by
  refine ⟨rfl, rfl, fun i s hs => ?_⟩
  simp only [answers_fault_iff hs]
  refine ⟨nofun, fun f h => ?_, fun h => ?_, ?_⟩
  · cases h <;> decide
  · cases h with
    | parse_malformedLine hline => exact ⟨_, rfl, hline⟩
  · rintro ⟨l, rfl, hline⟩
    exact .parse_malformedLine hline

/-- Settles O11: a word that matches is read as the row WF2, which refuses to run; the decoder rejects any other. -/
theorem bareFrameIsNoOperation : Obligations.BareFrameIsNoOperation := by
  refine ⟨fun f s => rfl, fun s w rest hs hreq => ?_⟩
  split_ifs with hmatch
  · obtain ⟨f, hdecode⟩ := decode_frame_of_match hmatch
    exact step_of_decode_ok hs hreq hdecode
  · exact step_of_decode_error hs hreq (decode_frame_of_mismatch hmatch)

end Sys2Proof.Machine
end

section
/-! Proofs about progress and reset: each request record gets its response in one step (R128), an idle block waits
(R119), and reset treats what it drops as never issued (R120). -/

namespace Sys2Proof.Machine

/-! ### Progress -/

/-- A request record asks for one of the four operations, never for the row WF2 (R41, R116). -/
theorem isOperation_of_decode_request {q : ReqPort} {i : Instr} (hd : decode (.request q) = .ok i) :
    isOperation i = true := by
  obtain hop | hop | hop | hop := selector_cases q.op
  · rw [decode_request_decode hop] at hd
    cases hpayload : readPayload q with
    | error e => rw [hpayload] at hd; cases hd
    | ok p => rw [hpayload] at hd; cases hd; rfl
  · rw [decode_request_encode hop] at hd
    cases hd; rfl
  · rw [decode_request_format hop] at hd
    cases hpayload : readPayload q with
    | error e => rw [hpayload] at hd; cases hd
    | ok p =>
      cases hts : readTs q.ts with
      | none => rw [hpayload, hts] at hd; cases hd
      | some t => rw [hpayload, hts] at hd; cases hd; rfl
  · rw [decode_request_parse hop] at hd
    cases hline : readLine q with
    | error e => rw [hline] at hd; cases hd
    | ok l => rw [hline] at hd; cases hd; rfl

/-- One step on the oldest request record: it is taken off its port and answered (R4, R12). -/
theorem step_of_decode_request {s : State} {q : ReqPort} {rest : List PortWord} {i : Instr} (hs : Populated s)
    (hreq : s.requests = .request q :: rest) (hd : decode (.request q) = .ok i) :
    step s = .next { s with requests := rest, responses := s.responses ++ [answerOf s.hexUpper i] } := by
  rw [step_of_decode_ok hs hreq hd]
  exact exec_answers (s := { s with requests := rest }) (isOperation_of_decode_request hd) hs

/-! ### Reset -/

/-- Reset treats a dropped request as never issued (R120). -/
@[simp] theorem applyReset_presentAll (s : State) (ws : List PortWord) :
    applyReset (presentAll ws s) = applyReset s := rfl

/-! ### The obligations -/

/-- Settles O15: a record that decodes names an operation, and every operation answers. -/
theorem everyRequestIsAnsweredInOneStep : Obligations.EveryRequestIsAnsweredInOneStep :=
  fun s _ _ i hs hreq hd => ⟨answerOf s.hexUpper i, step_of_decode_request hs hreq hd⟩

/-- Settles O9: the step rule of an idle block. -/
theorem idleBlockWaits : Obligations.IdleBlockWaits :=
  fun _ hs hidle => step_idle hs hidle

/-- Settles O22: reset forgets the dropped words, and the block it leaves is idle and waits. -/
theorem resetDropsWhatIsPending : Obligations.ResetDropsWhatIsPending := by
  intro s dropped hs
  have hidle : (applyReset s).requests = [] := applyReset_requests s
  have hwait : step (applyReset s) = .next (applyReset s) := step_idle (s := applyReset s) hs hidle
  rw [applyReset_presentAll]
  exact ⟨hidle, rfl, rfl, rfl, hwait, fun _ => rfl⟩

end Sys2Proof.Machine
end
